-- ==== Sys2Proof/Word.lean ====
section
/-! DEFINITION. The value types of the machine: every value is an unsigned integer of a stated width (R7), and bit 0
is the least significant bit (R6). -/

namespace Sys2Proof

/-- An 8-bit value: a general register, a timer, a byte of memory, the immediate `kk` (R7). -/
abbrev Byte := BitVec 8

/-- A 16-bit value: the index register, the program counter, a stack slot, an instruction word (R7, R60). -/
abbrev Word := BitVec 16

/-- A 4-bit field of an instruction word (R61). -/
abbrev Nibble := BitVec 4

/-- The 12-bit address field `nnn` (R61, R63). -/
abbrev Addr12 := BitVec 12

/-- The number of a general register, 0 to 15 (R21). -/
abbrev RegIdx := Fin 16

/-- The hex value of a key of the keypad, 0 to 15 (R194). -/
abbrev Key := Fin 16

/-- The number of `VF`, the register that some operations also write as a flag (R22). -/
abbrev flagReg : RegIdx := 15

end Sys2Proof
end

