-- ==== Sys2Proof/Syntax.lean ====
section
/-! DEFINITION. The instruction set: one constructor for each of the 35 rows of the opcode map (R72, R75), in the map's
order. The operands are the fields of R61 that the row's format gives it (R62, R63). -/

namespace Sys2Proof

/-- The 35 operations. `x` and `y` name registers, `kk` is an unsigned byte, `nnn` an absolute 12-bit address and `n`
a row count (R63). shift-right and shift-left carry the field `y` that they ignore, the only don't-care field of the
instruction set (R66, R71). -/
inductive Instr where
  | halt
  | clearDisplay
  | ret
  | jump (nnn : Addr12)
  | call (nnn : Addr12)
  | skipEqByte (x : RegIdx) (kk : Byte)
  | skipNeByte (x : RegIdx) (kk : Byte)
  | skipEqReg (x y : RegIdx)
  | loadImmediate (x : RegIdx) (kk : Byte)
  | addImmediate (x : RegIdx) (kk : Byte)
  | move (x y : RegIdx)
  | or (x y : RegIdx)
  | and (x y : RegIdx)
  | xor (x y : RegIdx)
  | addReg (x y : RegIdx)
  | sub (x y : RegIdx)
  | shiftRight (x y : RegIdx)
  | subn (x y : RegIdx)
  | shiftLeft (x y : RegIdx)
  | skipNeReg (x y : RegIdx)
  | loadIndex (nnn : Addr12)
  | jumpWithOffset (nnn : Addr12)
  | randomAnd (x : RegIdx) (kk : Byte)
  | draw (x y : RegIdx) (n : Fin 16)
  | keyPressed (x : RegIdx)
  | keyNotPressed (x : RegIdx)
  | getDelay (x : RegIdx)
  | waitKey (x : RegIdx)
  | setDelay (x : RegIdx)
  | setSound (x : RegIdx)
  | addIndex (x : RegIdx)
  | spriteAddress (x : RegIdx)
  | bcdStore (x : RegIdx)
  | regDump (x : RegIdx)
  | regLoad (x : RegIdx)
  deriving DecidableEq, Repr

end Sys2Proof
end

