-- ==== Sys2Proof/Decode.lean ====
section
/-! DEFINITION. The decoder and dispatcher of 30_encoding.md: field extraction (R61), the map from a word to one of the
35 operations or to a named rejection (R64 to R70), then the encoder and the opcode map as a table (R75). -/

namespace Sys2Proof

/-- Why a word (or a byte string) is no instruction: the six classes of undefined words of R70, and a string too
short to hold a word. Executing an undefined word raises DecodeError (R181). -/
inductive Reject where
  /-- `0x0nnn` other than 0x0000, 0x00E0 and 0x00EE (R65). -/
  | family0
  /-- `5xyN` with N not 0 (R69). -/
  | family5
  /-- `8xyN` with N in 8 to D or F (R66). -/
  | family8
  /-- `9xyN` with N not 0 (R69). -/
  | family9
  /-- `ExKK` with KK neither 9E nor A1 (R67). -/
  | familyE
  /-- `FxKK` with KK not one of the nine of R68. -/
  | familyF
  /-- Fewer than the two bytes of a word (R60). -/
  | truncated
  deriving DecidableEq, Repr

/-- The six fields that the decoder extracts from every word, whatever the instruction (R61). -/
structure Fields where
  op : RegIdx
  x : RegIdx
  y : RegIdx
  n : RegIdx
  kk : Byte
  nnn : Addr12
  deriving DecidableEq, Repr

/-- Field extraction, which cannot fail (R61): `op = w[15:12]`, `x = w[11:8]`, `y = w[7:4]`, `n = w[3:0]`,
`kk = w[7:0]`, `nnn = w[11:0]`. -/
def fieldsOf (w : Word) : Fields where
  op := (w.extractLsb' 12 4).toFin
  x := (w.extractLsb' 8 4).toFin
  y := (w.extractLsb' 4 4).toFin
  n := (w.extractLsb' 0 4).toFin
  kk := w.extractLsb' 0 8
  nnn := w.extractLsb' 0 12

/-- Family 0 is decoded on the whole word, that is on `nnn` (R65). -/
def decodeFamily0 (f : Fields) : Except Reject Instr :=
  match f.nnn.toNat with
  | 0x000 => .ok .halt
  | 0x0E0 => .ok .clearDisplay
  | 0x0EE => .ok .ret
  | _ => .error .family0

/-- Family 8 is keyed by `n` (R66). -/
def decodeFamily8 (f : Fields) : Except Reject Instr :=
  match f.n.val with
  | 0x0 => .ok (.move f.x f.y)
  | 0x1 => .ok (.or f.x f.y)
  | 0x2 => .ok (.and f.x f.y)
  | 0x3 => .ok (.xor f.x f.y)
  | 0x4 => .ok (.addReg f.x f.y)
  | 0x5 => .ok (.sub f.x f.y)
  | 0x6 => .ok (.shiftRight f.x f.y)
  | 0x7 => .ok (.subn f.x f.y)
  | 0xE => .ok (.shiftLeft f.x f.y)
  | _ => .error .family8

/-- Family E is keyed by the whole low byte (R67). -/
def decodeFamilyE (f : Fields) : Except Reject Instr :=
  match f.kk.toNat with
  | 0x9E => .ok (.keyPressed f.x)
  | 0xA1 => .ok (.keyNotPressed f.x)
  | _ => .error .familyE

/-- Family F is keyed by the whole low byte (R68). -/
def decodeFamilyF (f : Fields) : Except Reject Instr :=
  match f.kk.toNat with
  | 0x07 => .ok (.getDelay f.x)
  | 0x0A => .ok (.waitKey f.x)
  | 0x15 => .ok (.setDelay f.x)
  | 0x18 => .ok (.setSound f.x)
  | 0x1E => .ok (.addIndex f.x)
  | 0x29 => .ok (.spriteAddress f.x)
  | 0x33 => .ok (.bcdStore f.x)
  | 0x55 => .ok (.regDump f.x)
  | 0x65 => .ok (.regLoad f.x)
  | _ => .error .familyF

/-- `5xy0` and `9xy0`: the low nibble must be 0 (R69, D2). -/
def requireN0 (f : Fields) (why : Reject) (i : Instr) : Except Reject Instr :=
  if f.n = 0 then .ok i else .error why

/-- The first level of dispatch, by the leading nibble (R64); the last arm is the nibble 0xF. -/
def dispatch (f : Fields) : Except Reject Instr :=
  match f.op.val with
  | 0x0 => decodeFamily0 f
  | 0x1 => .ok (.jump f.nnn)
  | 0x2 => .ok (.call f.nnn)
  | 0x3 => .ok (.skipEqByte f.x f.kk)
  | 0x4 => .ok (.skipNeByte f.x f.kk)
  | 0x5 => requireN0 f .family5 (.skipEqReg f.x f.y)
  | 0x6 => .ok (.loadImmediate f.x f.kk)
  | 0x7 => .ok (.addImmediate f.x f.kk)
  | 0x8 => decodeFamily8 f
  | 0x9 => requireN0 f .family9 (.skipNeReg f.x f.y)
  | 0xA => .ok (.loadIndex f.nnn)
  | 0xB => .ok (.jumpWithOffset f.nnn)
  | 0xC => .ok (.randomAnd f.x f.kk)
  | 0xD => .ok (.draw f.x f.y f.n)
  | 0xE => decodeFamilyE f
  | _ => decodeFamilyF f

/-- Decode reads nothing but the word (R83): total, and every undefined word is rejected by the name of its class. -/
def decodeWord (w : Word) : Except Reject Instr := dispatch (fieldsOf w)

/-- The word of two bytes: the byte at the lower address is bits 15 to 8 (R44). -/
def wordOfBytes (hi lo : Byte) : Word := hi ++ lo

/-- The two bytes of a word in the order memory holds them, big-endian (R44, R60). -/
def bytesOfWord (w : Word) : List Byte := [w.extractLsb' 8 8, w.extractLsb' 0 8]

/-- Decode the instruction at the head of a byte string, with the bytes after it (R60: every instruction is exactly
one word of two bytes). -/
def decode : List Byte → Except Reject (Instr × List Byte)
  | hi :: lo :: rest => (decodeWord (wordOfBytes hi lo)).map fun i => (i, rest)
  | _ => .error .truncated

/-- The instruction that the decoder reads from the table's word, laid out big-endian as memory holds it (R44). -/
def decodeTableWord (nbits w : Nat) : Option Instr :=
  match decode (bytesOfWord (BitVec.ofNat 16 (w % 2 ^ nbits))) with
  | .ok (i, _) => some i
  | .error _ => none

/-! ## The encoder -/

/-- A register number (or a row count) as the 4-bit field that holds it (R61). -/
def nibbleOf (r : RegIdx) : Nibble := BitVec.ofFin (w := 4) r

/-- Format NNN: `oooo nnnn nnnn nnnn` (R62). -/
def wordNNN (op : Nibble) (nnn : Addr12) : Word := op ++ nnn

/-- Formats XKK and XFF: `oooo xxxx kkkk kkkk` (R62). -/
def wordXKK (op : Nibble) (x : RegIdx) (kk : Byte) : Word := op ++ nibbleOf x ++ kk

/-- Formats XYF and XYN: `oooo xxxx yyyy nnnn` (R62). -/
def wordXYN (op : Nibble) (x y n : RegIdx) : Word := op ++ nibbleOf x ++ nibbleOf y ++ nibbleOf n

/-- The word of an instruction, from the patterns of the opcode map (R75). -/
def encode : Instr → Word
  | .halt => 0x0000
  | .clearDisplay => 0x00E0
  | .ret => 0x00EE
  | .jump nnn => wordNNN 0x1 nnn
  | .call nnn => wordNNN 0x2 nnn
  | .skipEqByte x kk => wordXKK 0x3 x kk
  | .skipNeByte x kk => wordXKK 0x4 x kk
  | .skipEqReg x y => wordXYN 0x5 x y 0x0
  | .loadImmediate x kk => wordXKK 0x6 x kk
  | .addImmediate x kk => wordXKK 0x7 x kk
  | .move x y => wordXYN 0x8 x y 0x0
  | .or x y => wordXYN 0x8 x y 0x1
  | .and x y => wordXYN 0x8 x y 0x2
  | .xor x y => wordXYN 0x8 x y 0x3
  | .addReg x y => wordXYN 0x8 x y 0x4
  | .sub x y => wordXYN 0x8 x y 0x5
  | .shiftRight x y => wordXYN 0x8 x y 0x6
  | .subn x y => wordXYN 0x8 x y 0x7
  | .shiftLeft x y => wordXYN 0x8 x y 0xE
  | .skipNeReg x y => wordXYN 0x9 x y 0x0
  | .loadIndex nnn => wordNNN 0xA nnn
  | .jumpWithOffset nnn => wordNNN 0xB nnn
  | .randomAnd x kk => wordXKK 0xC x kk
  | .draw x y n => wordXYN 0xD x y n
  | .keyPressed x => wordXKK 0xE x 0x9E
  | .keyNotPressed x => wordXKK 0xE x 0xA1
  | .getDelay x => wordXKK 0xF x 0x07
  | .waitKey x => wordXKK 0xF x 0x0A
  | .setDelay x => wordXKK 0xF x 0x15
  | .setSound x => wordXKK 0xF x 0x18
  | .addIndex x => wordXKK 0xF x 0x1E
  | .spriteAddress x => wordXKK 0xF x 0x29
  | .bcdStore x => wordXKK 0xF x 0x33
  | .regDump x => wordXKK 0xF x 0x55
  | .regLoad x => wordXKK 0xF x 0x65

/-! ## The opcode map as data -/

/-- One row of the opcode map (R75): a word `w` is the row's operation when `w &&& mask = pattern`. -/
structure OpcodeRow where
  mnemonic : String
  mask : Word
  pattern : Word
  deriving DecidableEq, Repr

/-- The row selects the word (R75). -/
def OpcodeRow.selects (r : OpcodeRow) (w : Word) : Bool := w &&& r.mask == r.pattern

/-- The row of an instruction in the opcode map (R75). -/
def opcodeRow : Instr → OpcodeRow
  | .halt => ⟨"halt", 0xFFFF, 0x0000⟩
  | .clearDisplay => ⟨"clear-display", 0xFFFF, 0x00E0⟩
  | .ret => ⟨"return", 0xFFFF, 0x00EE⟩
  | .jump _ => ⟨"jump", 0xF000, 0x1000⟩
  | .call _ => ⟨"call", 0xF000, 0x2000⟩
  | .skipEqByte _ _ => ⟨"skip-eq-byte", 0xF000, 0x3000⟩
  | .skipNeByte _ _ => ⟨"skip-ne-byte", 0xF000, 0x4000⟩
  | .skipEqReg _ _ => ⟨"skip-eq-reg", 0xF00F, 0x5000⟩
  | .loadImmediate _ _ => ⟨"load-immediate", 0xF000, 0x6000⟩
  | .addImmediate _ _ => ⟨"add-immediate", 0xF000, 0x7000⟩
  | .move _ _ => ⟨"move", 0xF00F, 0x8000⟩
  | .or _ _ => ⟨"or", 0xF00F, 0x8001⟩
  | .and _ _ => ⟨"and", 0xF00F, 0x8002⟩
  | .xor _ _ => ⟨"xor", 0xF00F, 0x8003⟩
  | .addReg _ _ => ⟨"add-reg", 0xF00F, 0x8004⟩
  | .sub _ _ => ⟨"sub", 0xF00F, 0x8005⟩
  | .shiftRight _ _ => ⟨"shift-right", 0xF00F, 0x8006⟩
  | .subn _ _ => ⟨"subn", 0xF00F, 0x8007⟩
  | .shiftLeft _ _ => ⟨"shift-left", 0xF00F, 0x800E⟩
  | .skipNeReg _ _ => ⟨"skip-ne-reg", 0xF00F, 0x9000⟩
  | .loadIndex _ => ⟨"load-index", 0xF000, 0xA000⟩
  | .jumpWithOffset _ => ⟨"jump-with-offset", 0xF000, 0xB000⟩
  | .randomAnd _ _ => ⟨"random-and", 0xF000, 0xC000⟩
  | .draw _ _ _ => ⟨"draw", 0xF000, 0xD000⟩
  | .keyPressed _ => ⟨"key-pressed", 0xF0FF, 0xE09E⟩
  | .keyNotPressed _ => ⟨"key-not-pressed", 0xF0FF, 0xE0A1⟩
  | .getDelay _ => ⟨"get-delay", 0xF0FF, 0xF007⟩
  | .waitKey _ => ⟨"wait-key", 0xF0FF, 0xF00A⟩
  | .setDelay _ => ⟨"set-delay", 0xF0FF, 0xF015⟩
  | .setSound _ => ⟨"set-sound", 0xF0FF, 0xF018⟩
  | .addIndex _ => ⟨"add-index", 0xF0FF, 0xF01E⟩
  | .spriteAddress _ => ⟨"sprite-address", 0xF0FF, 0xF029⟩
  | .bcdStore _ => ⟨"bcd-store", 0xF0FF, 0xF033⟩
  | .regDump _ => ⟨"reg-dump", 0xF0FF, 0xF055⟩
  | .regLoad _ => ⟨"reg-load", 0xF0FF, 0xF065⟩

/-- The whole opcode map, in its order (R72, R75): the row of one instruction of each kind. -/
def opcodeTable : List OpcodeRow :=
  [opcodeRow .halt, opcodeRow .clearDisplay, opcodeRow .ret, opcodeRow (.jump 0), opcodeRow (.call 0),
    opcodeRow (.skipEqByte 0 0), opcodeRow (.skipNeByte 0 0), opcodeRow (.skipEqReg 0 0),
    opcodeRow (.loadImmediate 0 0), opcodeRow (.addImmediate 0 0)] ++
  [opcodeRow (.move 0 0), opcodeRow (.or 0 0), opcodeRow (.and 0 0), opcodeRow (.xor 0 0), opcodeRow (.addReg 0 0),
    opcodeRow (.sub 0 0), opcodeRow (.shiftRight 0 0), opcodeRow (.subn 0 0), opcodeRow (.shiftLeft 0 0)] ++
  [opcodeRow (.skipNeReg 0 0), opcodeRow (.loadIndex 0), opcodeRow (.jumpWithOffset 0), opcodeRow (.randomAnd 0 0),
    opcodeRow (.draw 0 0 0), opcodeRow (.keyPressed 0), opcodeRow (.keyNotPressed 0)] ++
  [opcodeRow (.getDelay 0), opcodeRow (.waitKey 0), opcodeRow (.setDelay 0), opcodeRow (.setSound 0),
    opcodeRow (.addIndex 0), opcodeRow (.spriteAddress 0), opcodeRow (.bcdStore 0), opcodeRow (.regDump 0),
    opcodeRow (.regLoad 0)]

end Sys2Proof
end

