-- ==== Sys2Proof/Config.lean ====
section
/-! DEFINITION. What one implementation fixes (the parameters of R5) and the free answers of the collaborators.
The literals of the source are constants here; the parameters that the spec leaves OPEN are the fields of `Config`, and
a state carries its `Config`, so that a statement about every state holds for every value of them (D30). -/

namespace Sys2Proof

/-- What sub and subn leave in `Vx` when the minuend is not greater (R5, D5): `keep` leaves it, `wrap` stores the
difference modulo 256. -/
inductive SubPolicy where
  | keep
  | wrap
  deriving DecidableEq, Repr

/-- The parameters of R5 that one machine fixes and no step changes. Their default values stand in
`Config.default` (Machine/Parameters.lean). -/
structure Config where
  /-- `ENTRY`, the load address and the reset value of `pc` (R5, U9). -/
  entry : Word
  /-- `FONT_BASE`, where glyph 0 stands (R5, R36, D11). -/
  fontBase : Word
  /-- `GLYPHS[16][5]`, the built-in sprites, top row first (R5, R36, D11). -/
  glyphs : Vector (Vector Byte 5) 16
  /-- `DISPLAY_W`, the columns of the display (R5, D12). -/
  displayW : Nat
  /-- `DISPLAY_H`, the rows of the display (R5, D12). -/
  displayH : Nat
  /-- `SUB_POLICY` (R5, D5). -/
  subPolicy : SubPolicy
  deriving DecidableEq, Repr

namespace Config

/-- `MEM_SIZE` (R5): the addresses are 0x000 to 0xFFF. -/
abbrev memSize : Nat := 4096

/-- `STACK_DEPTH` (R5). -/
abbrev stackDepth : Nat := 16

/-- `NUM_GLYPHS * GLYPH_BYTES` (R5): the bytes of the built-in font. -/
abbrev fontBytes : Nat := 80

/-- `MAX_PROGRAM = MEM_SIZE - ENTRY` (R5). -/
def maxProgram (cfg : Config) : Nat := memSize - cfg.entry.toNat

/-- The answers of `Random.byte()` when the environment has supplied none (R199, D18): the `k`-th answer asked for is
any byte at all. A free value, log entry 2. -/
opaque freeRandomByte : Nat → Byte

/-- The answers of `Input.is_key_down(key)` when the environment has supplied none (R194, D26). A free value, log
entry 2. -/
opaque freeKeyDown : Nat → Key → Bool

/-- The answers of `Input.next_key_pressed()` when the environment has supplied none; `none` is the collaborator's
"none yet" (R194, D26). A free value, log entry 2. -/
opaque freeKeyPress : Nat → Option Key

end Config

end Sys2Proof
end

