-- ==== Sys2Proof/Machine/State.lean ====
section
/-! DEFINITION. The state of the machine: everything that R20 and R31 list, plain data, then the model's own two fields
(the parameters of R5 and the environment's answers), the reasons a step can stop, and the state after reset. -/

namespace Sys2Proof.Machine

/-- The bytes of `mem` that differ from its reset contents, in strictly rising order of address (R28, log entry 23). -/
abbrev Memory := List Host.Cell

/-- A cell of the display, (row, column), row 0 at the top and column 0 at the left (R31). -/
abbrev Pixel := Nat × Nat

/-- The cells of `fb` that are on, in reading order, each once (R31, log entry 17). -/
abbrev Display := List Pixel

/-- `run_state` (R29). -/
inductive RunState where
  | running
  | awaitingInput
  | halted
  | faulted
  deriving DecidableEq, Repr

/-- The four kinds of fault, a closed list (R180). -/
inductive FaultKind where
  | decodeError
  | stackOverflow
  | stackUnderflow
  | outOfBounds
  deriving DecidableEq, Repr

/-- The fault record (R30): the address the faulting instruction was fetched from, and its word, or none when the
fetch itself faulted. -/
structure FaultRecord where
  kind : FaultKind
  faultPc : Word
  word : Option Word
  deriving DecidableEq, Repr

/-- The model's own field for the free inputs of R32 and R90: the answers that the environment has ready, oldest first,
and how many calls it has answered. Where a list is empty the answer is a free value of Config applied to the counter
(log entry 2). -/
structure Environment where
  /-- Answers ready for `Random.byte()` (R199). -/
  randomBytes : List Byte
  /-- Answers ready for `Input.is_key_down` (R194). -/
  keyDowns : List Bool
  /-- Answers ready for `Input.next_key_pressed()`, `none` for "none yet" (R194). -/
  keyPresses : List (Option Key)
  /-- The calls answered so far. -/
  asked : Nat
  deriving DecidableEq, Repr

/-- The whole machine (R20), the display collaborator's bitmap (R31), and the model's own `cfg` and `env`. -/
structure State where
  /-- The parameters of R5; no step changes them. -/
  cfg : Config
  /-- `V[0..15]` (R21); `VF` is `V[15]` (R22). -/
  v : Vector Byte 16
  /-- `I` (R23). -/
  index : Word
  /-- `pc` (R24). -/
  pc : Word
  /-- `stack[0..15]` (R25). -/
  stack : Vector Word 16
  /-- `sp`, the number of valid entries of the stack, 0 to 16 (R25). -/
  sp : Fin 17
  /-- `DT`, the delay timer (R26). -/
  dt : Byte
  /-- `ST`, the sound timer (R27). -/
  st : Byte
  /-- `mem` (R28). -/
  mem : Memory
  /-- `run_state` (R29). -/
  runState : RunState
  /-- `fault`, meaningful only when Faulted (R30). -/
  fault : Option FaultRecord
  /-- `fb`, the display collaborator's bitmap (R31). -/
  display : Display
  /-- The environment's answers to come (R32, R90). -/
  env : Environment
  deriving DecidableEq, Repr

/-- Why a step has no next state. The four faults of R180 are not here: a step that raises one has a next state, the
machine Faulted (R185). -/
inductive Fault where
  /-- Raised by `step` alone, in a Halted machine, which has no core transition (R86, D28). Safe: the model stops where
  the spec gives no step. -/
  | steppedWhileHalted
  /-- Raised by `step` alone, in a Faulted machine, which has no core transition (R86, R186, D28). Safe: the model stops
  where the spec gives no step. -/
  | steppedWhileFaulted
  deriving DecidableEq, Repr

/-- Why something the machine is asked for is not done. -/
inductive Refusal where
  /-- Raised by an arm of `exec` that has no meaning yet, by the mnemonic of its row. No arm of this model raises it.
  Safe: the model stops. -/
  | notModelled (mnemonic : String)
  /-- Raised by the host's loader (`HostMove.apply`) for a program image longer than `MAX_PROGRAM`, which no state of the
  spec describes (R211, U19). No instruction and no step raises it. Safe: the model stops. -/
  | imageTooLong
  deriving DecidableEq, Repr

/-- No answer is ready and none has been given. DESIGN CHOICE, log entry 2. -/
def Environment.fresh : Environment where
  randomBytes := []
  keyDowns := []
  keyPresses := []
  asked := 0

/-- The state after reset of a machine with the given parameters, before the program is loaded (R35, R210). -/
def State.resetWith (cfg : Config) : State where
  cfg := cfg
  v := Vector.replicate 16 0
  index := 0
  pc := cfg.entry
  stack := Vector.replicate 16 0
  sp := 0
  dt := 0
  st := 0
  mem := []
  runState := .running
  fault := none
  display := []
  env := .fresh

/-- The state after reset, with the default parameters of R5 (R35, R210; log entry 8 for the values that rest on a
decision of the spec). -/
def State.reset : State := State.resetWith Config.default

end Sys2Proof.Machine
end

