-- ==== Sys2Proof/Machine/Display.lean ====
section
/-! DEFINITION. The display collaborator's reference model (R31, R193): the bitmap `fb` as the list of its lit cells. -/

namespace Sys2Proof.Machine

/-- Reading order: by row, then by column. -/
abbrev Pixel.before (p q : Pixel) : Prop := p.1 < q.1 ∨ (p.1 = q.1 ∧ p.2 < q.2)

/-- `fb[row][col] = 1` (R31). -/
def Display.isOn (fb : Display) (p : Pixel) : Bool := decide (p ∈ fb)

/-- Light a cell, in its place in reading order. -/
def Display.light : Display → Pixel → Display
  | [], p => [p]
  | q :: rest, p => if Pixel.before p q then p :: q :: rest else q :: Display.light rest p

/-- `fb[row][col] <- fb[row][col] xor 1` (R193). -/
def Display.toggle (fb : Display) (p : Pixel) : Display :=
  if Display.isOn fb p then fb.filter fun q => q ≠ p else Display.light fb p

/-- `Display.clear()`: every cell off (R193). -/
def Display.clear (_fb : Display) : Display := []

/-- The columns `j`, 0 to 7 from the left, that a sprite row sets: bit `7 - j` of the row byte (R161, R193). -/
def spriteColumns (row : Byte) : List Nat := (List.range 8).filter fun j => row.getLsbD (7 - j)

/-- The cells that one sprite row inverts, with its coordinates reduced modulo the grid size, per pixel (R193). -/
def rowPixels (cfg : Config) (x y : Nat) (row : Byte) : List Pixel :=
  (spriteColumns row).map fun j => (y % cfg.displayH, (x + j) % cfg.displayW)

/-- The cells that a sprite inverts, row by row from the top, each row from the left (R193). -/
def spritePixels (cfg : Config) (x y : Nat) : List Byte → List Pixel
  | [] => []
  | row :: rest => rowPixels cfg x y row ++ spritePixels cfg x (y + 1) rest

/-- Invert the cells one after the other; the flag says whether one of them was on before its turn (R193). -/
def Display.xorPixels (fb : Display) : List Pixel → Display × Bool
  | [] => (fb, false)
  | p :: rest =>
    let after := Display.xorPixels (Display.toggle fb p) rest
    (after.1, Display.isOn fb p || after.2)

/-- `Display.xor_sprite(x, y, rows) -> collision` (R193). -/
def Display.xorSprite (cfg : Config) (fb : Display) (x y : Nat) (rows : List Byte) : Display × Bool :=
  Display.xorPixels fb (spritePixels cfg x y rows)

/-- The canonical form: lit cells in reading order, each once, all inside the grid (R31, log entry 17). -/
abbrev Display.wf (cfg : Config) (fb : Display) : Prop :=
  fb.Pairwise Pixel.before ∧ ∀ p ∈ fb, p.1 < cfg.displayH ∧ p.2 < cfg.displayW

end Sys2Proof.Machine
end

