-- ==== Sys2Proof/Machine/Memory.lean ====
section
/-! DEFINITION. The memory array (20_memory.md) as a list of the bytes that differ from the reset contents. Nothing here
checks a bound: the checked accesses of R41 are in Machine/Ops.lean. -/

namespace Sys2Proof.Machine

/-- What an address that the list does not hold reads as: the reset contents, glyph byte `k` at `FONT_BASE + k` and 0
elsewhere (R35, R36). -/
def Memory.unlisted (cfg : Config) (a : Nat) : Byte :=
  let k := a - cfg.fontBase.toNat
  if h : cfg.fontBase.toNat ≤ a ∧ k < Config.fontBytes then
    (cfg.glyphs[k / 5]'(by have : k < 80 := h.2; omega))[k % 5]'(Nat.mod_lt _ (by omega))
  else 0

/-- The listed byte at an address, if any. -/
def Memory.lookup : Memory → Nat → Option Byte
  | [], _ => none
  | (k, b) :: rest, a => if k = a then some b else Memory.lookup rest a

/-- The byte at an address (R28, R40). -/
def Memory.read (cfg : Config) (m : Memory) (a : Nat) : Byte :=
  (Memory.lookup m a).getD (Memory.unlisted cfg a)

/-- Drop what is listed at an address. -/
def Memory.remove (m : Memory) (a : Nat) : Memory := m.filter fun c => c.1 ≠ a

/-- List a byte at an address, in its place among the rising addresses. -/
def Memory.insert : Memory → Nat → Byte → Memory
  | [], a, b => [(a, b)]
  | (k, c) :: rest, a, b => if a < k then (a, b) :: (k, c) :: rest else (k, c) :: Memory.insert rest a b

/-- Store a byte; storing the reset contents removes the entry, so that equal memories are equal lists (R28). -/
def Memory.write (cfg : Config) (m : Memory) (a : Nat) (b : Byte) : Memory :=
  if b = Memory.unlisted cfg a then Memory.remove m a else Memory.insert (Memory.remove m a) a b

/-- Store bytes at consecutive addresses, in ascending order (R47). -/
def Memory.writeBytes (cfg : Config) (m : Memory) (base : Nat) : List Byte → Memory
  | [] => m
  | b :: rest => Memory.writeBytes cfg (Memory.write cfg m base b) (base + 1) rest

/-- The canonical form: addresses strictly rising and inside 0x000 to 0xFFF (R40), and no entry equal to what an unlisted
address reads as (log entry 23). -/
abbrev Memory.wf (cfg : Config) (m : Memory) : Prop :=
  m.Pairwise (fun c d => c.1 < d.1) ∧ ∀ c ∈ m, c.1 < Config.memSize ∧ c.2 ≠ Memory.unlisted cfg c.1

end Sys2Proof.Machine
end

