-- ==== Sys2Proof/WellFormed.lean ====
section
/-! DEFINITION. What the spec asks of the data a machine is given: the constraints of R5 on the parameters and the
length limit of R211 on a program image. An instruction needs no check of its own: a register index, a row count, a
byte and a 12-bit address are exact in their types, so every value of `Instr` is well formed (R21, R63: the source's
"validated against its bound" can never fail for a register index). -/

namespace Sys2Proof

/-- `FONT_BASE + 80 <= 0x200`: the glyphs lie in the glyph region (R5). -/
abbrev Config.fontFits (cfg : Config) : Prop := cfg.fontBase.toNat + Config.fontBytes ≤ 0x200

/-- `DISPLAY_W >= 8` (R5). -/
abbrev Config.wideEnough (cfg : Config) : Prop := 8 ≤ cfg.displayW

/-- `DISPLAY_H >= 15` (R5). -/
abbrev Config.tallEnough (cfg : Config) : Prop := 15 ≤ cfg.displayH

/-- The entry address is not past the end of memory, so that `MAX_PROGRAM = MEM_SIZE - ENTRY` is meant as written
(R5). DEDUCED, log entry 1. -/
abbrev Config.entryInMemory (cfg : Config) : Prop := cfg.entry.toNat ≤ Config.memSize

/-- The parameters meet every constraint of R5. -/
abbrev Config.wf (cfg : Config) : Prop :=
  cfg.fontFits ∧ cfg.wideEnough ∧ cfg.tallEnough ∧ cfg.entryInMemory

/-- The loader's only validation: the image is at most `MEM_SIZE - ENTRY` bytes (R211). -/
abbrev imageFits (cfg : Config) (image : List Byte) : Prop := image.length ≤ cfg.maxProgram

end Sys2Proof
end

