-- ==== Sys2Proof/Machine/Ops.lean ====
section
/-! DEFINITION. The named operations over registers, memory, stack, timers, display and environment that the meanings
share; entering a fault, the one shared operation of R185 (there is no return from a fault, R186); and the stages of a
step that come before execution (40_execution_cycle.md). -/

namespace Sys2Proof.Machine

/-- What a meaning answers. -/
abbrev Result := Host.Outcome State Fault Refusal

/-! ## One update for each piece of state -/

/-- `V[r]` (R8, R21). -/
def State.reg (s : State) (r : RegIdx) : Byte := s.v[r]

/-- `V[r] <- b` (R8, R21). -/
def State.setReg (s : State) (r : RegIdx) (b : Byte) : State := { s with v := s.v.set r b }

/-- Replace the registers `V0`, `V1`, ... by the given bytes, as many as there are (R145). -/
def State.setRegs (s : State) (bs : List Byte) : State :=
  { s with v := Vector.ofFn fun r : Fin 16 => (bs[r.val]?).getD (s.v[r]) }

/-- `I <- a` (R23). -/
def State.setIndex (s : State) (a : Word) : State := { s with index := a }

/-- `pc <- a` (R24). -/
def State.setPc (s : State) (a : Word) : State := { s with pc := a }

/-- Replace the stack and its pointer (R25). -/
def State.setStack (s : State) (stack : Vector Word 16) (sp : Fin 17) : State := { s with stack := stack, sp := sp }

/-- `DT <- b` (R26). -/
def State.setDelay (s : State) (b : Byte) : State := { s with dt := b }

/-- `ST <- b` (R27). -/
def State.setSound (s : State) (b : Byte) : State := { s with st := b }

/-- Replace the memory (R28). -/
def State.setMem (s : State) (m : Memory) : State := { s with mem := m }

/-- `run_state <- r` (R29). -/
def State.setRun (s : State) (r : RunState) : State := { s with runState := r }

/-- Replace the display (R31). -/
def State.setDisplay (s : State) (fb : Display) : State := { s with display := fb }

/-- Replace the environment's answers (R32). -/
def State.setEnv (s : State) (e : Environment) : State := { s with env := e }

/-! ## Memory -/

/-- `MemRead(a, 1)`: the byte, or nothing outside 0x000 to 0xFFF (R8, R41). -/
def State.memRead (s : State) (a : Nat) : Option Byte :=
  if a < Config.memSize then some (Memory.read s.cfg s.mem a) else none

/-- `MemWrite(a, 1, b)`: the state after it, or nothing outside 0x000 to 0xFFF (R8, R41). -/
def State.memWrite (s : State) (a : Nat) (b : Byte) : Option State :=
  if a < Config.memSize then some (s.setMem (Memory.write s.cfg s.mem a b)) else none

/-- The one range check of an instruction that touches `base .. base + len - 1`, on unbounded integers; an empty block is
in range wherever it lies (R41, R146, R161). -/
abbrev blockInRange (base len : Nat) : Prop := len = 0 ∨ base + len ≤ Config.memSize

/-- The bytes of a block in ascending order, or nothing when it leaves memory (R41, R146, D24). -/
def State.readBlock (s : State) (base len : Nat) : Option (List Byte) :=
  if blockInRange base len then some ((List.range len).map fun k => Memory.read s.cfg s.mem (base + k)) else none

/-- Store bytes at `base`, `base + 1`, ..., or nothing at all when the block leaves memory (R41, R146, D24). -/
def State.writeBlock (s : State) (base : Nat) (bs : List Byte) : Option State :=
  if blockInRange base bs.length then some (s.setMem (Memory.writeBytes s.cfg s.mem base bs)) else none

/-- `FetchWord(a)`: big-endian, from any address that has a byte after it, even or odd (R44, R46). -/
def State.fetchWord (s : State) (a : Nat) : Option Word :=
  if a + 1 < Config.memSize then
    some (wordOfBytes (Memory.read s.cfg s.mem a) (Memory.read s.cfg s.mem (a + 1)))
  else none

/-! ## The program counter -/

/-- The address the current instruction was fetched from: during execution `pc = (insn_addr + 2) mod 2^16` (R8, R24). -/
def State.insnAddr (s : State) : Word := s.pc - 2

/-- A skip passes over exactly one instruction when it is taken (R109). -/
def State.skipIf (s : State) (taken : Bool) : State := if taken then s.setPc (s.pc + 2) else s

/-! ## The return stack -/

/-- Push a return address, or nothing when the stack is full (R25, R102). -/
def State.pushReturn (s : State) (a : Word) : Option State :=
  if h : s.sp.val < Config.stackDepth then
    some (s.setStack (s.stack.set s.sp.val a h) ⟨s.sp.val + 1, Nat.succ_lt_succ h⟩)
  else none

/-- The newest return address and the state without it, or nothing when the stack is empty; the slot keeps its value
(R25, R100, D29). -/
def State.popReturn (s : State) : Option (Word × State) :=
  if h : 0 < s.sp.val then
    some (s.stack[s.sp.val - 1]'(by omega), s.setStack s.stack ⟨s.sp.val - 1, by omega⟩)
  else none

/-! ## The collaborators' answers -/

/-- The answer of `Random.byte()` at this step: any byte (R199). -/
def State.randomAnswer (s : State) : Byte :=
  s.env.randomBytes.head?.getD (Config.freeRandomByte s.env.asked)

/-- The answer of `Input.is_key_down(k)` at this step: any boolean (R194). -/
def State.keyDownAnswer (s : State) (k : Key) : Bool :=
  s.env.keyDowns.head?.getD (Config.freeKeyDown s.env.asked k)

/-- The answer of `Input.next_key_pressed()` at this step: any key, or none yet (R194). -/
def State.keyPressAnswer (s : State) : Option Key :=
  s.env.keyPresses.head?.getD (Config.freeKeyPress s.env.asked)

/-- `Random.byte()` has been answered. -/
def State.randomAsked (s : State) : State :=
  s.setEnv { s.env with randomBytes := s.env.randomBytes.tail, asked := s.env.asked + 1 }

/-- `Input.is_key_down` has been answered. -/
def State.keyDownAsked (s : State) : State :=
  s.setEnv { s.env with keyDowns := s.env.keyDowns.tail, asked := s.env.asked + 1 }

/-- `Input.next_key_pressed()` has been answered. -/
def State.keyPressAsked (s : State) : State :=
  s.setEnv { s.env with keyPresses := s.env.keyPresses.tail, asked := s.env.asked + 1 }

/-! ## Faults -/

/-- Fault entry (R185): the run state becomes Faulted, the record is written, `pc` stays where the stages of the step
left it, and nothing else changes. -/
def State.enterFault (s : State) (kind : FaultKind) (faultPc : Word) (word : Option Word) : State :=
  { s with runState := .faulted, fault := some { kind := kind, faultPc := faultPc, word := word } }

/-- An operation raises a fault: the record holds the address the instruction was fetched from and its word (R30,
R185). -/
def raiseFault (kind : FaultKind) (i : Instr) (s : State) : Result :=
  .next (s.enterFault kind s.insnAddr (some (encode i)))

/-- The optional cause numbers 1 to 4, in the source's order; no rule depends on them (R180, D8). -/
def FaultKind.code : FaultKind → Nat
  | .decodeError => 1
  | .stackOverflow => 2
  | .stackUnderflow => 3
  | .outOfBounds => 4

/-! ## The stages of a step before execution -/

/-- A step taken in AwaitingInput is an ordinary step: the run state goes back to Running first (R80, R86). -/
def State.resume (s : State) : State := s.setRun .running

/-- The word that the step fetches (R81). -/
def State.fetched (s : State) : Option Word := s.fetchWord s.pc.toNat

/-- The fetch faults: `pc` is not advanced, and the record holds no word (R81, R184, R185). -/
def State.fetchFault (s : State) : State := s.enterFault .outOfBounds s.pc none

/-- `pc <- (insn_addr + 2) mod 2^16`, after the fetch and before decode (R82). -/
def State.advance (s : State) : State := s.setPc (s.pc + 2)

/-- Dispatch of an undefined word, with `pc` already advanced (R83, R181, R185). -/
def State.decodeFault (s : State) (w : Word) : State := s.enterFault .decodeError s.insnAddr (some w)

/-- A Halted machine has no core transition (R86, D28). -/
def stepInHalted (_s : State) : Result := .fault .steppedWhileHalted

/-- A Faulted machine has no core transition (R86, R186, D28). -/
def stepInFaulted (_s : State) : Result := .fault .steppedWhileFaulted

/-- Store a word where the next step fetches, in the order memory holds it (R44, R81); nothing where no fetch can
succeed. -/
def State.placeWord (s : State) (w : Word) : State :=
  if s.pc.toNat + 1 < Config.memSize then
    s.setMem (Memory.writeBytes s.cfg s.mem s.pc.toNat (bytesOfWord w))
  else s

end Sys2Proof.Machine
end

