-- ==== Sys2Proof/Machine/Flags.lean ====
section
/-! DEFINITION. The values that six operations write to `VF` (R22): always the 8-bit number 0 or 1. -/

namespace Sys2Proof.Machine

/-- A condition as a flag value (R22). -/
def flagByte (c : Bool) : Byte := if c then 1 else 0

/-- add-reg: 1 if `Vx + Vy >= 256` (R126, R132). -/
def carryFlag (a b : Byte) : Byte := flagByte (decide (256 ≤ a.toNat + b.toNat))

/-- sub and subn: 1 if the minuend is greater, strictly; equality gives 0 (R127, R129). -/
def greaterFlag (minuend subtrahend : Byte) : Byte := flagByte (decide (subtrahend.toNat < minuend.toNat))

/-- shift-right: bit 0 before the shift (R128). -/
def lowBitFlag (a : Byte) : Byte := flagByte (a.getLsbD 0)

/-- shift-left: bit 7 before the shift (R130). -/
def highBitFlag (a : Byte) : Byte := flagByte (a.getLsbD 7)

/-- draw: 1 if the display reported a collision (R161). -/
def collisionFlag (collision : Bool) : Byte := flagByte collision

end Sys2Proof.Machine
end

