-- ==== Sys2Proof/Machine/Operands.lean ====
section
/-! DEFINITION. The operand forms (R63): what a meaning reads through the fields of its instruction. A register operand
is `State.reg`; the only addressing mode is `I`-relative (R146). -/

namespace Sys2Proof.Machine

/-- `zext_16(nnn)`: an absolute address, never scaled (R7, R63). -/
def absoluteAddr (nnn : Addr12) : Word := nnn.setWidth 16

/-- `zext_16(V[r])`: a register as a 16-bit addend (R107, R141). -/
def wideReg (s : State) (r : RegIdx) : Word := (s.reg r).setWidth 16

/-- The base of every data access, as an unbounded integer (R146). -/
def blockBase (s : State) : Nat := s.index.toNat

/-- The values of `V0` to `Vx`, in order (R144). -/
def regsUpTo (s : State) (x : RegIdx) : List Byte := s.v.toList.take (x.val + 1)

/-- A value used as a hex digit or as a key: 0 to 15, or nothing (R142, R162, D10). -/
def hexDigit (b : Byte) : Option Key :=
  if h : b.toNat < 16 then some ⟨b.toNat, h⟩ else none

/-- A key's hex value as a register value (R165). -/
def keyByte (k : Key) : Byte := BitVec.ofNat 8 k.val

/-- The address of the glyph of a hex digit, `FONT_BASE + 5 * d` (R36, R142). -/
def glyphAddr (cfg : Config) (d : Key) : Word := cfg.fontBase + BitVec.ofNat 16 (5 * d.val)

/-- The hundreds, tens and ones of a byte, each a binary number 0 to 9 (R143). -/
def bcdDigits (b : Byte) : List Byte :=
  [BitVec.ofNat 8 (b.toNat / 100), BitVec.ofNat 8 (b.toNat / 10 % 10), BitVec.ofNat 8 (b.toNat % 10)]

end Sys2Proof.Machine
end

