-- ==== Sys2Proof/Machine/Alu.lean ====
section
/-! DEFINITION. Register, arithmetic, logic, shift and random instructions (42_alu.md). Each runs with `pc` already
advanced and leaves it there (R82). Operands are the values before any write, and writes land in the order of the rule
(R8, R133; log entry 11). -/

namespace Sys2Proof.Machine

/-- load-immediate (R120). -/
def execLoadImmediate (x : RegIdx) (kk : Byte) (s : State) : Result := .next (s.setReg x kk)

/-- add-immediate: modulo 256, no flag (R121). -/
def execAddImmediate (x : RegIdx) (kk : Byte) (s : State) : Result := .next (s.setReg x (s.reg x + kk))

/-- move (R122). -/
def execMove (x y : RegIdx) (s : State) : Result := .next (s.setReg x (s.reg y))

/-- or (R123). -/
def execOr (x y : RegIdx) (s : State) : Result := .next (s.setReg x (s.reg x ||| s.reg y))

/-- and (R124). -/
def execAnd (x y : RegIdx) (s : State) : Result := .next (s.setReg x (s.reg x &&& s.reg y))

/-- xor (R125). -/
def execXor (x y : RegIdx) (s : State) : Result := .next (s.setReg x (s.reg x ^^^ s.reg y))

/-- add-reg: the result, then the carry (R126, R133). -/
def execAddReg (x y : RegIdx) (s : State) : Result :=
  .next ((s.setReg x (s.reg x + s.reg y)).setReg flagReg (carryFlag (s.reg x) (s.reg y)))

/-- The write that sub and subn share: the flag, then the difference; when the minuend is not greater the difference is
written under `SUB_POLICY = wrap` only (R127, R129, R133; log entry 12). -/
def State.subtractInto (s : State) (x : RegIdx) (minuend subtrahend : Byte) : State :=
  let flagged := s.setReg flagReg (greaterFlag minuend subtrahend)
  if subtrahend.toNat < minuend.toNat ∨ s.cfg.subPolicy = .wrap then flagged.setReg x (minuend - subtrahend)
  else flagged

/-- sub: `Vx - Vy` (R127). -/
def execSub (x y : RegIdx) (s : State) : Result := .next (s.subtractInto x (s.reg x) (s.reg y))

/-- shift-right: the flag, then the result; `y` is ignored (R128, R133). -/
def execShiftRight (x _y : RegIdx) (s : State) : Result :=
  .next ((s.setReg flagReg (lowBitFlag (s.reg x))).setReg x (s.reg x >>> 1))

/-- subn: `Vy - Vx` into `Vx` (R129, D6). -/
def execSubn (x y : RegIdx) (s : State) : Result := .next (s.subtractInto x (s.reg y) (s.reg x))

/-- shift-left: the flag, then the result; `y` is ignored (R130, R133). -/
def execShiftLeft (x _y : RegIdx) (s : State) : Result :=
  .next ((s.setReg flagReg (highBitFlag (s.reg x))).setReg x (s.reg x <<< 1))

/-- random-and: one draw, masked (R131, R199). -/
def execRandomAnd (x : RegIdx) (kk : Byte) (s : State) : Result :=
  .next (s.randomAsked.setReg x (s.randomAnswer &&& kk))

end Sys2Proof.Machine
end

