-- ==== Sys2Proof/Machine/ControlFlow.lean ====
section
/-! DEFINITION. halt (R87) and the control transfer instructions (41_control_flow.md). `pc` is the advanced value
`insn_addr + 2` when they run, and no target is checked (R82, R108). -/

namespace Sys2Proof.Machine

/-- halt: no other effect (R87). -/
def execHalt (s : State) : Result := .next (s.setRun .halted)

/-- return: StackUnderflow on an empty stack (R100). -/
def execRet (s : State) : Result :=
  match s.popReturn with
  | some (a, t) => .next (t.setPc a)
  | none => raiseFault .stackUnderflow .ret s

/-- jump (R101). -/
def execJump (nnn : Addr12) (s : State) : Result := .next (s.setPc (absoluteAddr nnn))

/-- call: pushes the advanced `pc`; StackOverflow on a full stack (R102, D21). -/
def execCall (nnn : Addr12) (s : State) : Result :=
  match s.pushReturn s.pc with
  | some t => .next (t.setPc (absoluteAddr nnn))
  | none => raiseFault .stackOverflow (.call nnn) s

/-- skip-eq-byte (R103, R109). -/
def execSkipEqByte (x : RegIdx) (kk : Byte) (s : State) : Result := .next (s.skipIf (s.reg x == kk))

/-- skip-ne-byte (R104, R109). -/
def execSkipNeByte (x : RegIdx) (kk : Byte) (s : State) : Result := .next (s.skipIf (s.reg x != kk))

/-- skip-eq-reg (R105, R109). -/
def execSkipEqReg (x y : RegIdx) (s : State) : Result := .next (s.skipIf (s.reg x == s.reg y))

/-- skip-ne-reg (R106, R109). -/
def execSkipNeReg (x y : RegIdx) (s : State) : Result := .next (s.skipIf (s.reg x != s.reg y))

/-- jump-with-offset: `nnn + V0`, not reduced modulo 4096 (R107). -/
def execJumpWithOffset (nnn : Addr12) (s : State) : Result := .next (s.setPc (absoluteAddr nnn + wideReg s 0))

end Sys2Proof.Machine
end

