-- ==== Sys2Proof/Machine/DisplayInputTimers.lean ====
section
/-! DEFINITION. Display, keypad and timer instructions (44_display_input_timers.md), the operations that call a
collaborator (60_exceptions.md, R193, R194). -/

namespace Sys2Proof.Machine

/-- clear-display (R160). -/
def execClearDisplay (s : State) : Result := .next (s.setDisplay (Display.clear s.display))

/-- draw: the rows at `I`, XORed at (`Vx`, `Vy`), then the collision flag; no range check when `n = 0` (R161, D25). -/
def execDraw (x y : RegIdx) (n : Fin 16) (s : State) : Result :=
  match s.readBlock (blockBase s) n.val with
  | some rows =>
    let drawn := Display.xorSprite s.cfg s.display (s.reg x).toNat (s.reg y).toNat rows
    .next ((s.setDisplay drawn.1).setReg flagReg (collisionFlag drawn.2))
  | none => raiseFault .outOfBounds (.draw x y n) s

/-- key-pressed: OutOfBounds for a value above 15, and then the collaborator is not called (R162, D10). -/
def execKeyPressed (x : RegIdx) (s : State) : Result :=
  match hexDigit (s.reg x) with
  | some k => .next (s.keyDownAsked.skipIf (s.keyDownAnswer k))
  | none => raiseFault .outOfBounds (.keyPressed x) s

/-- key-not-pressed (R163). -/
def execKeyNotPressed (x : RegIdx) (s : State) : Result :=
  match hexDigit (s.reg x) with
  | some k => .next (s.keyDownAsked.skipIf (!s.keyDownAnswer k))
  | none => raiseFault .outOfBounds (.keyNotPressed x) s

/-- get-delay (R164). -/
def execGetDelay (x : RegIdx) (s : State) : Result := .next (s.setReg x s.dt)

/-- wait-key: one poll; with no key the advance is cancelled and the machine awaits input (R165, D16). -/
def execWaitKey (x : RegIdx) (s : State) : Result :=
  .next (match s.keyPressAnswer with
    | some k => s.keyPressAsked.setReg x (keyByte k)
    | none => (s.keyPressAsked.setPc s.insnAddr).setRun .awaitingInput)

/-- set-delay (R166). -/
def execSetDelay (x : RegIdx) (s : State) : Result := .next (s.setDelay (s.reg x))

/-- set-sound (R167). -/
def execSetSound (x : RegIdx) (s : State) : Result := .next (s.setSound (s.reg x))

end Sys2Proof.Machine
end

