-- ==== Sys2Proof/Machine/IndexMemory.lean ====
section
/-! DEFINITION. Index register and memory instructions (43_index_memory.md). No memory access changes `I` (R146, D14), and
the range check comes before any byte moves (R41, D24). -/

namespace Sys2Proof.Machine

/-- load-index (R140). -/
def execLoadIndex (nnn : Addr12) (s : State) : Result := .next (s.setIndex (absoluteAddr nnn))

/-- add-index: modulo 2^16, no flag, no fault (R141). -/
def execAddIndex (x : RegIdx) (s : State) : Result := .next (s.setIndex (s.index + wideReg s x))

/-- sprite-address: OutOfBounds for a digit above 15 (R142, D10). -/
def execSpriteAddress (x : RegIdx) (s : State) : Result :=
  match hexDigit (s.reg x) with
  | some d => .next (s.setIndex (glyphAddr s.cfg d))
  | none => raiseFault .outOfBounds (.spriteAddress x) s

/-- bcd-store: hundreds, tens, ones at `I`, `I + 1`, `I + 2` (R143, D13). -/
def execBcdStore (x : RegIdx) (s : State) : Result :=
  match s.writeBlock (blockBase s) (bcdDigits (s.reg x)) with
  | some t => .next t
  | none => raiseFault .outOfBounds (.bcdStore x) s

/-- reg-dump: `V0` to `Vx` at `I`, `V0` lowest (R144). -/
def execRegDump (x : RegIdx) (s : State) : Result :=
  match s.writeBlock (blockBase s) (regsUpTo s x) with
  | some t => .next t
  | none => raiseFault .outOfBounds (.regDump x) s

/-- reg-load: `V0` to `Vx` from `I` (R145). -/
def execRegLoad (x : RegIdx) (s : State) : Result :=
  match s.readBlock (blockBase s) (x.val + 1) with
  | some bs => .next (s.setRegs bs)
  | none => raiseFault .outOfBounds (.regLoad x) s

end Sys2Proof.Machine
end

