-- ==== Sys2Proof/Machine/Step.lean ====
section
/-! DEFINITION. One step of the core (R80): resume, fetch, advance, decode, execute. Its stages stand in
Machine/Ops.lean. -/

namespace Sys2Proof.Machine

/-- One step (R80 to R86), enabled only in Running and AwaitingInput. -/
def step (s : State) : Host.Outcome State Fault Refusal :=
  match s.runState with
  | .halted => stepInHalted s
  | .faulted => stepInFaulted s
  | .running | .awaitingInput =>
    match s.resume.fetched with
    | none => .next s.resume.fetchFault
    | some w =>
      match decodeWord w with
      | .error _ => .next (s.resume.advance.decodeFault w)
      | .ok i => exec i s.resume.advance

/-- The state with the table's word stored where the next step fetches (log entry 9); nothing but memory changes. -/
def State.withFetchWord (s : State) (nbits w : Nat) : State := s.placeWord (BitVec.ofNat 16 (w % 2 ^ nbits))

end Sys2Proof.Machine
end

