-- ==== Sys2Proof/Machine/HostMoves.lean ====
section
/-! DEFINITION. The host's side of the machine: reset and program load (70_reset_and_hazards.md), the timer ticks and the
sound flag (R191, R192), the collaborators' answers, and runs in which steps and host moves interleave freely (R12,
R89; log entry 7). -/

namespace Sys2Proof.Machine

/-- `tick_delay()`: down by 1, to a floor of 0 (R191). -/
def State.tickDelay (s : State) : State := if 0 < s.dt.toNat then s.setDelay (s.dt - 1) else s

/-- `tick_sound()`: down by 1, to a floor of 0 (R191). -/
def State.tickSound (s : State) : State := if 0 < s.st.toNat then s.setSound (s.st - 1) else s

/-- The sound-timer-active flag that the host reads (R192). -/
def State.soundActive (s : State) : Bool := s.st != 0

/-- Program load: byte `i` of the image goes to `ENTRY + i`; a longer image than fits is refused (R211, U19). -/
def State.loadProgram (s : State) (image : List Byte) : Result :=
  if imageFits s.cfg image then .next (s.setMem (Memory.writeBytes s.cfg s.mem s.cfg.entry.toNat image))
  else .refused .imageTooLong

/-- Reset: the machine is constructed anew, with the same parameters; the environment is no part of it (R32, R210). -/
def State.rebuilt (s : State) : State := (State.resetWith s.cfg).setEnv s.env

/-- The environment makes answers ready; what it has answered before stays counted (R89: the host changes the held keys,
which only changes the answers to come). -/
def State.supply (s : State) (randomBytes : List Byte) (keyDowns : List Bool) (keyPresses : List (Option Key)) : State :=
  s.setEnv { randomBytes := randomBytes, keyDowns := keyDowns, keyPresses := keyPresses, asked := s.env.asked }

/-- The host's moves between steps (R12, R89). Reading the state changes nothing (D27), and the host writes memory only
when it loads a program, right after a reset (R52, R210). -/
inductive HostMove where
  /-- Reset and load a program image (R210, R211). -/
  | boot (image : List Byte)
  | tickDelay
  | tickSound
  | answers (randomBytes : List Byte) (keyDowns : List Bool) (keyPresses : List (Option Key))
  deriving DecidableEq, Repr

/-- What a host move does (R89). -/
def HostMove.apply (m : HostMove) (s : State) : Result :=
  match m with
  | .boot image => s.rebuilt.loadProgram image
  | .tickDelay => .next s.tickDelay
  | .tickSound => .next s.tickSound
  | .answers rs ds ps => .next (s.supply rs ds ps)

/-- What happens next: the host invokes the step, or makes a move of its own (R12). -/
inductive Event where
  | step
  | host (m : HostMove)
  deriving DecidableEq, Repr

/-- One event. -/
def Event.apply (e : Event) (s : State) : Result :=
  match e with
  | .step => Sys2Proof.Machine.step s
  | .host m => m.apply s

/-- A run under a schedule of events, stopping at the first that has no next state (R88, R89). -/
def runEvents : List Event → State → Result
  | [], s => .next s
  | e :: rest, s =>
    match e.apply s with
    | .next t => runEvents rest t
    | .fault r => .fault r
    | .refused r => .refused r

end Sys2Proof.Machine
end

