-- ==== Sys2Proof/Safety.lean ====
section
/-! DEFINITION. The terms that claims about the machine use: the states that have a step, what an instruction leaves
unchanged, when it faults, and the invariant of every reachable state (R37). A run is safe as long as no step enters
Faulted. -/

namespace Sys2Proof.Machine

/-- A step is enabled only in Running and AwaitingInput (R80). -/
abbrev State.Active (s : State) : Prop := s.runState = .running ∨ s.runState = .awaitingInput

/-- The pieces of state of R20 and R31 other than registers and memory, and the environment's answers. -/
inductive Part where
  | index
  | pc
  | stack
  | delay
  | sound
  | run
  | fault
  | display
  | env
  deriving DecidableEq, Repr

/-- What an instruction may change: registers, other pieces of state, and the bytes `storeBase .. storeBase + storeLen - 1`
of memory. -/
structure Footprint where
  regs : List RegIdx := []
  parts : List Part := []
  storeBase : Nat := 0
  storeLen : Nat := 0
  deriving DecidableEq, Repr

/-- Everything outside the footprint is the same in `t` as in `s`: every other register, every other piece of state, every
other byte of memory as `MemRead` gives it, and always the parameters. -/
structure Keeps (f : Footprint) (s t : State) : Prop where
  cfg : t.cfg = s.cfg
  regs : ∀ r, r ∉ f.regs → t.reg r = s.reg r
  index : Part.index ∉ f.parts → t.index = s.index
  pc : Part.pc ∉ f.parts → t.pc = s.pc
  stack : Part.stack ∉ f.parts → t.stack = s.stack ∧ t.sp = s.sp
  delay : Part.delay ∉ f.parts → t.dt = s.dt
  sound : Part.sound ∉ f.parts → t.st = s.st
  run : Part.run ∉ f.parts → t.runState = s.runState
  fault : Part.fault ∉ f.parts → t.fault = s.fault
  display : Part.display ∉ f.parts → t.display = s.display
  env : Part.env ∉ f.parts → t.env = s.env
  memory : ∀ a, ¬ (f.storeBase ≤ a ∧ a < f.storeBase + f.storeLen) → t.memRead a = s.memRead a

/-- The footprint of fault entry: the run state and the record, nothing else (R185). -/
def faultFootprint : Footprint := { parts := [.run, .fault] }

/-- `t` is the Faulted machine that the operation `i` leaves when it raises `kind` in `s` (R30, R185): `s` has its `pc`
already advanced, so that `insn_addr` is `pc - 2`. -/
def FaultsWith (kind : FaultKind) (i : Instr) (s t : State) : Prop :=
  t.runState = .faulted ∧ t.fault = some { kind := kind, faultPc := s.pc - 2, word := some (encode i) } ∧
    Keeps faultFootprint s t

/-- The instruction that a step of `s` would execute, if its fetch and its dispatch succeed. -/
def State.nextInstr (s : State) : Option Instr :=
  match s.fetched with
  | none => none
  | some w =>
    match decodeWord w with
    | .ok i => some i
    | .error _ => none

/-- The cells that a draw of `n` rows at `I` inverts: those where a set bit of a sprite row lands, every pixel wrapped on its
own (R161, R193). -/
def SpriteCovers (s : State) (x y : RegIdx) (n : Nat) (p : Pixel) : Prop :=
  ∃ r j row, r < n ∧ j < 8 ∧ s.memRead (s.index.toNat + r) = some row ∧ row.getLsbD (7 - j) = true ∧
    p = (((s.reg y).toNat + r) % s.cfg.displayH, ((s.reg x).toNat + j) % s.cfg.displayW)

/-- The registers that an instruction may write: its destination, `VF` where it writes a flag, `V0` to `Vx` for reg-load, and
none for every other (R21, R22). -/
def MayWriteReg (i : Instr) (r : RegIdx) : Prop :=
  match i with
  | .loadImmediate x _ | .addImmediate x _ | .randomAnd x _ | .move x _ | .or x _ | .and x _ | .xor x _
  | .getDelay x | .waitKey x => r = x
  | .addReg x _ | .sub x _ | .subn x _ | .shiftRight x _ | .shiftLeft x _ => r = x ∨ r = flagReg
  | .draw _ _ _ => r = flagReg
  | .regLoad x => r ≤ x
  | .halt | .clearDisplay | .ret | .jump _ | .call _ | .skipEqByte _ _ | .skipNeByte _ _ | .skipEqReg _ _
  | .skipNeReg _ _ | .loadIndex _ | .jumpWithOffset _ | .keyPressed _ | .keyNotPressed _ | .setDelay _ | .setSound _
  | .addIndex _ | .spriteAddress _ | .bcdStore _ | .regDump _ => False

/-- The condition on which an operation faults, with the kind of the fault (R182, R183, R184); no other operation faults
(R187). -/
def FaultCause (i : Instr) (s : State) (kind : FaultKind) : Prop :=
  match i with
  | .call _ => kind = .stackOverflow ∧ s.sp.val = 16
  | .ret => kind = .stackUnderflow ∧ s.sp.val = 0
  | .draw _ _ n => kind = .outOfBounds ∧ 1 ≤ n.val ∧ 0xFFF < s.index.toNat + n.val - 1
  | .bcdStore _ => kind = .outOfBounds ∧ 0xFFF < s.index.toNat + 2
  | .regDump x | .regLoad x => kind = .outOfBounds ∧ 0xFFF < s.index.toNat + x.val
  | .spriteAddress x | .keyPressed x | .keyNotPressed x => kind = .outOfBounds ∧ 15 < (s.reg x).toNat
  | .halt | .clearDisplay | .jump _ | .skipEqByte _ _ | .skipNeByte _ _ | .skipEqReg _ _ | .skipNeReg _ _
  | .loadImmediate _ _ | .addImmediate _ _ | .move _ _ | .or _ _ | .and _ _ | .xor _ _ | .addReg _ _ | .sub _ _
  | .shiftRight _ _ | .subn _ _ | .shiftLeft _ _ | .loadIndex _ | .jumpWithOffset _ | .randomAnd _ _ | .getDelay _
  | .waitKey _ | .setDelay _ | .setSound _ | .addIndex _ => False

/-- What holds in every reachable state (R24, R25, R29, R30, R37). The widths of R37 and `sp <= 16` are in the types. -/
structure State.Inv (s : State) : Prop where
  /-- The parameters meet R5. -/
  cfgWf : s.cfg.wf
  /-- The memory list is in its canonical form. -/
  memWf : Memory.wf s.cfg s.mem
  /-- The lit cells are in their canonical form, inside the grid. -/
  displayWf : Display.wf s.cfg s.display
  /-- The record holds a value exactly in Faulted (R30). -/
  record : s.fault.isSome = true ↔ s.runState = .faulted
  /-- Every valid stack entry is a return address, at most 0x1000 (R37). -/
  returns : ∀ j : Fin 16, j.val < s.sp.val → s.stack[j].toNat ≤ 0x1000
  /-- The largest `pc` that an instruction produces is 0x10FE (R24); the entry address is at most 0x1000. -/
  pcBound : s.pc.toNat ≤ 0x10FE
  /-- A waiting machine has its wait-key instruction at `pc` (R86). -/
  waiting : s.runState = .awaitingInput → ∃ x, s.nextInstr = some (.waitKey x)

end Sys2Proof.Machine
end

