-- ==== Sys2Proof/Certificates/Slice0/Obligations.lean ====
section
/-! DEFINITION. The statements for the provers, in the order of OBLIGATIONS.json. Exec runs in the state after the advance
of R82, so in a statement about `exec` the value `s.pc` is `insn_addr + 2`, and a footprint without `Part.pc` says that
`pc` stays there. -/

open Sys2Proof Sys2Proof.Machine

/-! ## Encoding -/

/-- R61: the six fields of a word, by its two bytes and by one another. -/
def Obligations.FieldsAreTheStatedBits : Prop :=
  ∀ w : Word, ∀ hi lo : Byte, w = wordOfBytes hi lo →
    (fieldsOf w).op.val = w.toNat / 4096 ∧ (fieldsOf w).op.val = hi.toNat / 16 ∧
    (fieldsOf w).x.val = w.toNat / 256 % 16 ∧ (fieldsOf w).x.val = hi.toNat % 16 ∧
    (fieldsOf w).y.val = w.toNat / 16 % 16 ∧ (fieldsOf w).y.val = lo.toNat / 16 ∧
    (fieldsOf w).n.val = w.toNat % 16 ∧ (fieldsOf w).n.val = lo.toNat % 16 ∧
    (fieldsOf w).kk.toNat = w.toNat % 256 ∧ (fieldsOf w).kk.toNat = (fieldsOf w).y.val * 16 + (fieldsOf w).n.val ∧
    (fieldsOf w).nnn.toNat = w.toNat % 4096 ∧
    (fieldsOf w).nnn.toNat = (fieldsOf w).x.val * 256 + (fieldsOf w).y.val * 16 + (fieldsOf w).n.val

/-- Words of the spec's own examples decode to the instructions they stand for, one of each format and family
(95_test_vectors.md). The opcode numbers are the spec's decision D1, that 0x5011 is undefined is D2 (log entries 3 and 4). -/
def Obligations.SpecWordsDecode : Prop :=
  decodeWord 0x8014 = .ok (.addReg 0 1) ∧ decodeWord 0x1200 = .ok (.jump 0x200) ∧
    decodeWord 0x00EE = .ok .ret ∧ decodeWord 0x3F01 = .ok (.skipEqByte 15 0x01) ∧
    decodeWord 0xD125 = .ok (.draw 1 2 5) ∧ decodeWord 0xE19E = .ok (.keyPressed 1) ∧
    decodeWord 0xF265 = .ok (.regLoad 2) ∧ decodeWord 0x5011 = .error .family5

/-- Decode and encode agree: every instruction, with every operand, is what its word decodes to (R64 to R69, R75).
The opcode numbers are the spec's decision D1 (log entry 3). -/
def Obligations.DecodeInvertsEncode : Prop := ∀ i : Instr, decodeWord (encode i) = .ok i

/-- Each word has one meaning: a word that decodes is the word of what it decodes to, don't-care nibble included (R66,
R70). Rests on the spec's decisions D1 to D4 (log entries 3 and 4). -/
def Obligations.EncodeInvertsDecode : Prop := ∀ (w : Word) (i : Instr), decodeWord w = .ok i → encode i = w

/-- The undefined words are exactly the six classes of R70, each rejected under its own name. Rests on the spec's decisions
D1 to D4 (log entries 3 and 4). -/
def Obligations.UndefinedWordsAreTheSixClasses : Prop :=
  ∀ w : Word,
    (decodeWord w = .error .family0 ↔
      w.toNat / 4096 = 0x0 ∧ w.toNat ≠ 0x0000 ∧ w.toNat ≠ 0x00E0 ∧ w.toNat ≠ 0x00EE) ∧
    (decodeWord w = .error .family5 ↔ w.toNat / 4096 = 0x5 ∧ w.toNat % 16 ≠ 0) ∧
    (decodeWord w = .error .family8 ↔
      w.toNat / 4096 = 0x8 ∧ (8 ≤ w.toNat % 16 ∧ w.toNat % 16 ≤ 13 ∨ w.toNat % 16 = 15)) ∧
    (decodeWord w = .error .family9 ↔ w.toNat / 4096 = 0x9 ∧ w.toNat % 16 ≠ 0) ∧
    (decodeWord w = .error .familyE ↔ w.toNat / 4096 = 0xE ∧ w.toNat % 256 ≠ 0x9E ∧ w.toNat % 256 ≠ 0xA1) ∧
    (decodeWord w = .error .familyF ↔
      w.toNat / 4096 = 0xF ∧
        w.toNat % 256 ∉ [0x07, 0x0A, 0x15, 0x18, 0x1E, 0x29, 0x33, 0x55, 0x65]) ∧
    decodeWord w ≠ .error .truncated

/-- The opcode map and the decoder agree: a word that decodes is selected by its instruction's row and by no other row of
the 35, and a word that does not decode is selected by none (R70, R75). Rests on the spec's decisions D1 to D4 (log
entries 3 and 4). -/
def Obligations.OpcodeMapMatchesDecoder : Prop :=
  opcodeTable.length = 35 ∧
  ∀ w : Word,
    (∀ i, decodeWord w = .ok i → ∀ r ∈ opcodeTable, (r.selects w = true ↔ r = opcodeRow i)) ∧
    (∀ i, decodeWord w = .ok i → opcodeRow i ∈ opcodeTable) ∧
    (∀ e, decodeWord w = .error e → ∀ r ∈ opcodeTable, r.selects w = false)

/-! ## Memory -/

/-- R40, R41: a store is seen at its address and nowhere else, and an access succeeds exactly at 0x000 to 0xFFF. -/
def Obligations.MemReadAfterMemWrite : Prop :=
  ∀ (s : State) (a : Nat) (b : Byte),
    (a ≤ 0xFFF → ∃ t, s.memWrite a b = some t ∧ t.memRead a = some b ∧ (∀ q, q ≠ a → t.memRead q = s.memRead q) ∧
      ∃ c, s.memRead a = some c) ∧
    (0xFFF < a → s.memWrite a b = none ∧ s.memRead a = none)

/-- R51, R214: the very next fetch sees a stored block, at an even or an odd address, whatever stood there before. -/
def Obligations.StoredWordIsFetchedNext : Prop :=
  ∀ (s t : State) (base : Nat) (bs : List Byte) (k : Nat), s.writeBlock base bs = some t → k + 1 < bs.length →
    t.fetchWord (base + k) = some (wordOfBytes (bs.getD k 0) (bs.getD (k + 1) 0))

/-! ## The step -/

/-- R80, R82, R86: where the two bytes at `pc` make a word that decodes to `i`, the step is the execution of `i` in the
state that is Running and has its `pc` moved past the word. -/
def Obligations.StepRunsDecodedInstruction : Prop :=
  ∀ (s : State) (hi lo : Byte) (i : Instr), s.Active → s.memRead s.pc.toNat = some hi →
    s.memRead (s.pc.toNat + 1) = some lo → decodeWord (wordOfBytes hi lo) = .ok i →
    step s = exec i { s with runState := .running, pc := s.pc + 2 }

/-- R81: the fetch faults exactly at 0xFFF and above, with no word in the record and `pc` not advanced; otherwise the word is
big-endian, at even and odd addresses alike. -/
def Obligations.FetchFaultsOnlyPastMemory : Prop :=
  ∀ s : State, s.Active →
    (0xFFF ≤ s.pc.toNat → ∃ t f, step s = .next t ∧ t.runState = .faulted ∧ t.fault = some f ∧
      f.kind = .outOfBounds ∧ f.word = none ∧ t.pc = s.pc) ∧
    (s.pc.toNat < 0xFFF → ∃ w hi lo, s.fetched = some w ∧ s.memRead s.pc.toNat = some hi ∧
      s.memRead (s.pc.toNat + 1) = some lo ∧ w.toNat = hi.toNat * 256 + lo.toNat)

/-- R181: an undefined word, and no other, raises DecodeError, with the address and the word in the record. -/
def Obligations.UndefinedWordRaisesDecodeError : Prop :=
  ∀ (s : State) (w : Word), s.Active → s.fault = none → s.fetched = some w →
    (∀ e, decodeWord w = .error e → ∃ t, step s = .next t ∧ t.runState = .faulted ∧
      t.fault = some { kind := .decodeError, faultPc := s.pc, word := some w }) ∧
    (∀ i t f, decodeWord w = .ok i → step s = .next t → t.fault = some f → f.kind ≠ .decodeError)

/-- R182, R183: StackOverflow comes from a call with `sp = 16` and from nothing else, StackUnderflow from a return with
`sp = 0` and from nothing else, each with its record. -/
def Obligations.StackFaultsHaveOneCauseEach : Prop :=
  ∀ (s t : State) (w : Word), s.Active → s.fault = none → s.fetched = some w → step s = .next t →
    (((∃ f, t.fault = some f ∧ f.kind = .stackOverflow) ↔ ∃ nnn, decodeWord w = .ok (.call nnn) ∧ s.sp.val = 16) ∧
    (∀ f, t.fault = some f → f.kind = .stackOverflow → f.faultPc = s.pc ∧ f.word = some w)) ∧
    (((∃ f, t.fault = some f ∧ f.kind = .stackUnderflow) ↔ decodeWord w = .ok .ret ∧ s.sp.val = 0) ∧
    (∀ f, t.fault = some f → f.kind = .stackUnderflow → f.faultPc = s.pc ∧ f.word = some 0x00EE))

/-- R184, R187: an operation faults exactly on its own condition, with the kind of that condition, and leaves the record of
R185 and nothing else; every other operation faults on none. Rests on the spec's decisions D8, D10 and D24. -/
def Obligations.OperationsFaultExactlyOnTheirCause : Prop :=
  ∀ (i : Instr) (s : State), s.runState = .running → s.fault = none →
    (∀ kind, FaultCause i s kind → ∃ t, exec i s = .next t ∧ FaultsWith kind i s t) ∧
    ((∀ kind, ¬ FaultCause i s kind) → ∃ t, exec i s = .next t ∧ t.runState ≠ .faulted ∧ t.fault = none)

/-- R185: a step that enters Faulted changes the run state, the record and `pc` alone; the record holds the address the
instruction was fetched from and its word, and `pc` is advanced unless the fetch itself faulted. Rests on D8 and D24. -/
def Obligations.FaultEntryIsPrecise : Prop :=
  ∀ s t : State, s.Active → step s = .next t → t.runState = .faulted →
    Keeps { parts := [.run, .fault, .pc] } s t ∧
    (∃ kind, t.fault = some { kind := kind, faultPc := s.pc, word := s.fetched }) ∧
    t.pc = if s.fetched = none then s.pc else s.pc + 2

/-- R86, R186: a Halted or Faulted machine has no step (the spec's decision D28; log entry 6). -/
def Obligations.StoppedMachineHasNoStep : Prop :=
  ∀ s : State, (s.runState = .halted → step s = .fault .steppedWhileHalted) ∧
    (s.runState = .faulted → step s = .fault .steppedWhileFaulted) ∧
    (∀ t, step s = .next t → s.Active)

/-- R86: a step in AwaitingInput is the ordinary step of the Running machine (the spec's decision D16; log entry 19). -/
def Obligations.WaitingStepIsOrdinary : Prop :=
  ∀ s : State, s.runState = .awaitingInput → step s = step { s with runState := .running }

/-- R29, R85: a step leaves the machine Halted exactly after halt, AwaitingInput exactly after wait-key with no key, Faulted
exactly with a record, and else Running. -/
def Obligations.RunStateAfterAStep : Prop :=
  ∀ s t : State, s.Active → s.fault = none → step s = .next t →
    (t.runState = .halted ↔ s.nextInstr = some .halt) ∧
    (t.runState = .awaitingInput ↔ (∃ x, s.nextInstr = some (.waitKey x)) ∧ s.keyPressAnswer = none) ∧
    (t.runState = .faulted ↔ t.fault ≠ none)

/-! ## Register, arithmetic, logic, shift and random instructions -/

/-- R120, R122, R164: load-immediate (`6xkk`), move (`8xy0`) and get-delay (`Fx07`) give `Vx` its new value and change
nothing else. The opcode numbers are the spec's decision D1 (log entry 3). -/
def Obligations.RegisterLoads : Prop :=
  ∀ (s : State) (x y : RegIdx) (kk : Byte),
    (encode (.loadImmediate x kk)).toNat = 0x6000 + x.val * 256 + kk.toNat ∧
    (encode (.move x y)).toNat = 0x8000 + x.val * 256 + y.val * 16 ∧
    (encode (.getDelay x)).toNat = 0xF007 + x.val * 256 ∧
    (∃ t, exec (.loadImmediate x kk) s = .next t ∧ t.reg x = kk ∧ Keeps { regs := [x] } s t) ∧
    (∃ t, exec (.move x y) s = .next t ∧ t.reg x = s.reg y ∧ Keeps { regs := [x] } s t) ∧
    (∃ t, exec (.getDelay x) s = .next t ∧ t.reg x = s.dt ∧ Keeps { regs := [x] } s t)

/-- R121: add-immediate (`7xkk`) adds modulo 256, with no flag. The opcode number is the spec's decision D1 (log entry
3). -/
def Obligations.AddImmediateWrapsWithoutFlag : Prop :=
  ∀ (s : State) (x : RegIdx) (kk : Byte), (encode (.addImmediate x kk)).toNat = 0x7000 + x.val * 256 + kk.toNat ∧
    ∃ t, exec (.addImmediate x kk) s = .next t ∧
    (t.reg x).toNat = ((s.reg x).toNat + kk.toNat) % 256 ∧ Keeps { regs := [x] } s t

/-- R123, R124, R125: or, and, xor bit by bit, into `Vx`; `VF` untouched (the spec's decision D22; log entry 14). -/
def Obligations.LogicBitByBit : Prop :=
  ∀ (s : State) (x y : RegIdx),
    (∃ t, exec (.or x y) s = .next t ∧ Keeps { regs := [x] } s t ∧
      ∀ k, (t.reg x).getLsbD k = ((s.reg x).getLsbD k || (s.reg y).getLsbD k)) ∧
    (∃ t, exec (.and x y) s = .next t ∧ Keeps { regs := [x] } s t ∧
      ∀ k, (t.reg x).getLsbD k = ((s.reg x).getLsbD k && (s.reg y).getLsbD k)) ∧
    (∃ t, exec (.xor x y) s = .next t ∧ Keeps { regs := [x] } s t ∧
      ∀ k, (t.reg x).getLsbD k = ((s.reg x).getLsbD k != (s.reg y).getLsbD k))

/-- R126: the carry in `VF` for all operands, and the sum modulo 256 in `Vx` when `Vx` is not `VF` itself, where only the
carry remains (R133, the spec's decision D7; log entry 11). -/
def Obligations.AddRegSumAndCarry : Prop :=
  ∀ (s : State) (x y : RegIdx), ∃ t, exec (.addReg x y) s = .next t ∧ Keeps { regs := [x, flagReg] } s t ∧
    t.reg flagReg = (if 256 ≤ (s.reg x).toNat + (s.reg y).toNat then 1 else 0) ∧
    (x ≠ flagReg → (t.reg x).toNat = ((s.reg x).toNat + (s.reg y).toNat) % 256)

/-- R127, R129: sub and subn into a register other than `VF`, under both values of `SUB_POLICY`: the flag is the strict
comparison, and the difference is stored when it is positive, or always under `wrap` (the spec's decisions D5 and D6;
log entry 12). -/
def Obligations.SubtractionsUnderBothPolicies : Prop :=
  ∀ (s : State) (x y : RegIdx), x ≠ flagReg →
    (∃ t, exec (.sub x y) s = .next t ∧ Keeps { regs := [x, flagReg] } s t ∧
      t.reg flagReg = (if (s.reg y).toNat < (s.reg x).toNat then 1 else 0) ∧
      ((s.reg y).toNat < (s.reg x).toNat → (t.reg x).toNat = (s.reg x).toNat - (s.reg y).toNat) ∧
      ((s.reg x).toNat ≤ (s.reg y).toNat → s.cfg.subPolicy = .keep → t.reg x = s.reg x) ∧
      ((s.reg x).toNat ≤ (s.reg y).toNat → s.cfg.subPolicy = .wrap →
        (t.reg x).toNat = (256 + (s.reg x).toNat - (s.reg y).toNat) % 256)) ∧
    (∃ t, exec (.subn x y) s = .next t ∧ Keeps { regs := [x, flagReg] } s t ∧
      t.reg flagReg = (if (s.reg x).toNat < (s.reg y).toNat then 1 else 0) ∧
      ((s.reg x).toNat < (s.reg y).toNat → (t.reg x).toNat = (s.reg y).toNat - (s.reg x).toNat) ∧
      ((s.reg y).toNat ≤ (s.reg x).toNat → s.cfg.subPolicy = .keep → t.reg x = s.reg x) ∧
      ((s.reg y).toNat ≤ (s.reg x).toNat → s.cfg.subPolicy = .wrap →
        (t.reg x).toNat = (256 + (s.reg y).toNat - (s.reg x).toNat) % 256))

/-- R128, R130: shift-right and shift-left of a register other than `VF`, by one bit, the lost bit in `VF`, whatever the
ignored field `y`. -/
def Obligations.ShiftsByOneBit : Prop :=
  ∀ (s : State) (x y : RegIdx), x ≠ flagReg →
    (∃ t, exec (.shiftRight x y) s = .next t ∧ Keeps { regs := [x, flagReg] } s t ∧
      (t.reg x).toNat = (s.reg x).toNat / 2 ∧ (t.reg flagReg).toNat = (s.reg x).toNat % 2) ∧
    (∃ t, exec (.shiftLeft x y) s = .next t ∧ Keeps { regs := [x, flagReg] } s t ∧
      (t.reg x).toNat = (s.reg x).toNat * 2 % 256 ∧ (t.reg flagReg).toNat = (s.reg x).toNat / 128)

/-- R133: what remains in `VF` when it is the destination of a subtraction or a shift (the spec's decision D7; log entry 11);
add-reg is AddRegSumAndCarry. -/
def Obligations.FlagRegisterAsDestination : Prop :=
  ∀ (s : State) (y : RegIdx),
    (∃ t, exec (.sub flagReg y) s = .next t ∧ Keeps { regs := [flagReg] } s t ∧
      (t.reg flagReg).toNat =
        if (s.reg y).toNat < (s.reg flagReg).toNat ∨ s.cfg.subPolicy = .wrap then
          (256 + (s.reg flagReg).toNat - (s.reg y).toNat) % 256 else 0) ∧
    (∃ t, exec (.subn flagReg y) s = .next t ∧ Keeps { regs := [flagReg] } s t ∧
      (t.reg flagReg).toNat =
        if (s.reg flagReg).toNat < (s.reg y).toNat ∨ s.cfg.subPolicy = .wrap then
          (256 + (s.reg y).toNat - (s.reg flagReg).toNat) % 256 else 0) ∧
    (∃ t, exec (.shiftRight flagReg y) s = .next t ∧ Keeps { regs := [flagReg] } s t ∧
      (t.reg flagReg).toNat = (s.reg flagReg).toNat / 2) ∧
    (∃ t, exec (.shiftLeft flagReg y) s = .next t ∧ Keeps { regs := [flagReg] } s t ∧
      (t.reg flagReg).toNat = (s.reg flagReg).toNat * 2 % 256)

/-- R131: random-and masks the answer of the random source, whatever it is: `r` is any byte at all (the spec's decision D18;
log entry 2). -/
def Obligations.RandomAndMasksTheAnswer : Prop :=
  ∀ (s : State) (x : RegIdx) (kk r : Byte), s.randomAnswer = r →
    ∃ t, exec (.randomAnd x kk) s = .next t ∧ t.reg x = r &&& kk ∧ t.reg x &&& ~~~kk = 0 ∧
      Keeps { regs := [x], parts := [.env] } s t

/-! ## Control transfer -/

/-- R87: halt stops the machine and changes nothing else (`pc` stays advanced: the spec's decision D20; log entry 20). -/
def Obligations.HaltStopsTheMachine : Prop :=
  ∀ s : State, ∃ t, exec .halt s = .next t ∧ t.runState = .halted ∧ Keeps { parts := [.run] } s t

/-- R101: jump (`1nnn`) overwrites the advance with its 12-bit target, odd or even. -/
def Obligations.JumpTakesItsTarget : Prop :=
  ∀ (s : State) (nnn : Addr12), (encode (.jump nnn)).toNat = 0x1000 + nnn.toNat ∧ ∃ t,
    exec (.jump nnn) s = .next t ∧ t.pc.toNat = nnn.toNat ∧
    Keeps { parts := [.pc] } s t

/-- R107: jump-with-offset adds `V0` and does not reduce the sum modulo 4096 (the spec derives this; log entry 22). -/
def Obligations.JumpWithOffsetAddsV0 : Prop :=
  ∀ (s : State) (nnn : Addr12), ∃ t, exec (.jumpWithOffset nnn) s = .next t ∧
    t.pc.toNat = nnn.toNat + (s.reg 0).toNat ∧ Keeps { parts := [.pc] } s t

/-- R103, R104: the byte skips (`3xkk`, `4xkk`) add 2 to the advanced `pc` exactly on their condition. The opcode numbers are
the spec's decision D1 (log entry 3). -/
def Obligations.ByteSkips : Prop :=
  ∀ (s : State) (x : RegIdx) (kk : Byte),
    (encode (.skipEqByte x kk)).toNat = 0x3000 + x.val * 256 + kk.toNat ∧
    (encode (.skipNeByte x kk)).toNat = 0x4000 + x.val * 256 + kk.toNat ∧
    (∃ t, exec (.skipEqByte x kk) s = .next t ∧ t.pc = (if s.reg x = kk then s.pc + 2 else s.pc) ∧
      Keeps { parts := [.pc] } s t) ∧
    (∃ t, exec (.skipNeByte x kk) s = .next t ∧ t.pc = (if s.reg x = kk then s.pc else s.pc + 2) ∧
      Keeps { parts := [.pc] } s t)

/-- R105, R106: the register skips (`5xy0`, `9xy0`), of any two registers. The opcode number 5 is the spec's decision D1, the
low nibble D2 (log entries 3 and 4). -/
def Obligations.RegisterSkips : Prop :=
  ∀ (s : State) (x y : RegIdx),
    (encode (.skipEqReg x y)).toNat = 0x5000 + x.val * 256 + y.val * 16 ∧
    (encode (.skipNeReg x y)).toNat = 0x9000 + x.val * 256 + y.val * 16 ∧
    (∃ t, exec (.skipEqReg x y) s = .next t ∧ t.pc = (if s.reg x = s.reg y then s.pc + 2 else s.pc) ∧
      Keeps { parts := [.pc] } s t) ∧
    (∃ t, exec (.skipNeReg x y) s = .next t ∧ t.pc = (if s.reg x = s.reg y then s.pc else s.pc + 2) ∧
      Keeps { parts := [.pc] } s t)

/-- R102: call pushes the advanced `pc` in the next free slot and takes its target; the other slots stay. (That the advanced
`pc` is pushed is the spec's decision D21; log entry 20.) -/
def Obligations.CallPushesAdvancedPc : Prop :=
  ∀ (s : State) (nnn : Addr12), s.sp.val < 16 →
    ∃ t, exec (.call nnn) s = .next t ∧ t.pc.toNat = nnn.toNat ∧ t.sp.val = s.sp.val + 1 ∧
      (∀ j : Fin 16, t.stack[j] = if j.val = s.sp.val then s.pc else s.stack[j]) ∧
      Keeps { parts := [.pc, .stack] } s t

/-- R100: return takes the newest address off the stack, whose slot keeps its value (the spec's decision D29; log
entry 21). -/
def Obligations.ReturnPopsNewestAddress : Prop :=
  ∀ (s : State) (j : Fin 16), s.sp.val = j.val + 1 →
    ∃ t, exec .ret s = .next t ∧ t.pc = s.stack[j] ∧ t.sp.val = j.val ∧ t.stack = s.stack ∧
      Keeps { parts := [.pc, .stack] } s t

/-- R100 (the source's property): a call and the return it reaches restore the `pc` that was current when call executed, the
address of the instruction after the call, and the stack pointer; of the stack only the slot that the call wrote has changed.
That the restored `pc` is the advanced one is the spec's decision D21 (log entry 20). -/
def Obligations.CallThenReturnRestoresPc : Prop :=
  ∀ (s : State) (nnn : Addr12), s.Active → s.sp.val < 16 → s.nextInstr = some (.call nnn) →
    s.fetchWord nnn.toNat = some 0x00EE →
    ∃ t u, step s = .next t ∧ step t = .next u ∧ u.pc = s.pc + 2 ∧ u.sp = s.sp ∧ u.runState = .running ∧
      (∀ j : Fin 16, u.stack[j] = if j.val = s.sp.val then s.pc + 2 else s.stack[j]) ∧
      Keeps { parts := [.pc, .stack, .run] } s u

/-! ## Index register and memory -/

/-- R140: load-index (`Annn`). The opcode number is the spec's decision D1 (log entry 3). -/
def Obligations.LoadIndexTakesTheAddress : Prop :=
  ∀ (s : State) (nnn : Addr12), (encode (.loadIndex nnn)).toNat = 0xA000 + nnn.toNat ∧ ∃ t,
    exec (.loadIndex nnn) s = .next t ∧ t.index.toNat = nnn.toNat ∧
    Keeps { parts := [.index] } s t

/-- R141: add-index wraps at 2^16 and nowhere else, writes no flag (the spec's decision D22; log entry 14) and does not
fault. -/
def Obligations.AddIndexWrapsAtSixteenBits : Prop :=
  ∀ (s : State) (x : RegIdx), ∃ t, exec (.addIndex x) s = .next t ∧
    t.index.toNat = (s.index.toNat + (s.reg x).toNat) % 65536 ∧ Keeps { parts := [.index] } s t

/-- R142: sprite-address of a hex digit, and OutOfBounds for any other value (the spec's decisions D10 and D11; log entries 8
and 13). -/
def Obligations.SpriteAddressOfADigit : Prop :=
  ∀ (s : State) (x : RegIdx), s.cfg.wf →
    ((s.reg x).toNat ≤ 15 → ∃ t, exec (.spriteAddress x) s = .next t ∧
      t.index.toNat = s.cfg.fontBase.toNat + 5 * (s.reg x).toNat ∧ Keeps { parts := [.index] } s t) ∧
    (15 < (s.reg x).toNat → ∃ t, exec (.spriteAddress x) s = .next t ∧
      FaultsWith .outOfBounds (.spriteAddress x) s t)

/-- R143: bcd-store puts hundreds, tens and ones at `I`, `I + 1`, `I + 2` (the spec's decision D13; log entry 16) and changes
no other byte; past the end of memory it faults and stores nothing (D24). -/
def Obligations.BcdStoreWritesThreeDigits : Prop :=
  ∀ (s : State) (x : RegIdx),
    (s.index.toNat + 2 ≤ 0xFFF → ∃ t h d o, exec (.bcdStore x) s = .next t ∧
      t.memRead s.index.toNat = some h ∧ t.memRead (s.index.toNat + 1) = some d ∧
      t.memRead (s.index.toNat + 2) = some o ∧ h.toNat = (s.reg x).toNat / 100 ∧
      d.toNat = (s.reg x).toNat / 10 % 10 ∧ o.toNat = (s.reg x).toNat % 10 ∧
      Keeps { storeBase := s.index.toNat, storeLen := 3 } s t) ∧
    (0xFFF < s.index.toNat + 2 → ∃ t, exec (.bcdStore x) s = .next t ∧ FaultsWith .outOfBounds (.bcdStore x) s t)

/-- R144: reg-dump stores `V0` to `Vx` from `I` upward and changes no other byte and no register, `I` included (the spec's
decision D14; log entry 15); past the end of memory it faults and stores nothing (D24). -/
def Obligations.RegDumpStoresRegisters : Prop :=
  ∀ (s : State) (x : RegIdx),
    (s.index.toNat + x.val ≤ 0xFFF → ∃ t, exec (.regDump x) s = .next t ∧
      (∀ k : RegIdx, k ≤ x → t.memRead (s.index.toNat + k.val) = some (s.reg k)) ∧
      Keeps { storeBase := s.index.toNat, storeLen := x.val + 1 } s t) ∧
    (0xFFF < s.index.toNat + x.val → ∃ t, exec (.regDump x) s = .next t ∧ FaultsWith .outOfBounds (.regDump x) s t)

/-- R145: reg-load fills `V0` to `Vx` from `I` upward and changes no register above `x`, no memory and not `I` (D14; log
entry 15); past the end of memory it faults and loads nothing (D24). -/
def Obligations.RegLoadLoadsRegisters : Prop :=
  ∀ (s : State) (x : RegIdx),
    (s.index.toNat + x.val ≤ 0xFFF → ∃ t, exec (.regLoad x) s = .next t ∧
      (∀ k : RegIdx, k ≤ x → s.memRead (s.index.toNat + k.val) = some (t.reg k)) ∧
      (∀ k : RegIdx, x < k → t.reg k = s.reg k) ∧
      Keeps { regs := (List.finRange 16).filter fun k => k ≤ x } s t) ∧
    (0xFFF < s.index.toNat + x.val → ∃ t, exec (.regLoad x) s = .next t ∧ FaultsWith .outOfBounds (.regLoad x) s t)

/-- R144 (the source's property): reg-dump then reg-load of the same `x` gives back every register. -/
def Obligations.RegDumpThenRegLoadKeepsRegisters : Prop :=
  ∀ (s : State) (x : RegIdx), s.index.toNat + x.val ≤ 0xFFF →
    ∃ t u, exec (.regDump x) s = .next t ∧ exec (.regLoad x) t = .next u ∧ (∀ k, u.reg k = s.reg k) ∧
      Keeps { storeBase := s.index.toNat, storeLen := x.val + 1 } s u

/-! ## Display, keypad and timers -/

/-- R160: clear-display (`00E0`) turns every cell off and changes nothing else. The opcode number is the spec's decision D1
(log entry 3). -/
def Obligations.ClearDisplayTurnsEveryCellOff : Prop :=
  encode .clearDisplay = 0x00E0 ∧ ∀ s : State, ∃ t,
    exec .clearDisplay s = .next t ∧ (∀ p, Display.isOn t.display p = false) ∧
    Keeps { parts := [.display] } s t

/-- R161, R193: draw inverts exactly the cells where a set bit of the sprite lands, and `VF` says whether one of them was on
(the spec's decisions D12 and D25; log entries 17 and 18); past the end of memory it faults and draws nothing (D24). -/
def Obligations.DrawInvertsTheSpritesCells : Prop :=
  ∀ (s : State) (x y : RegIdx) (n : Fin 16), s.cfg.wf →
    ((n.val = 0 ∨ s.index.toNat + n.val - 1 ≤ 0xFFF) → ∃ t, exec (.draw x y n) s = .next t ∧
      Keeps { regs := [flagReg], parts := [.display] } s t ∧
      (∀ p, SpriteCovers s x y n.val p → Display.isOn t.display p = !Display.isOn s.display p) ∧
      (∀ p, ¬ SpriteCovers s x y n.val p → Display.isOn t.display p = Display.isOn s.display p) ∧
      ((∃ p, SpriteCovers s x y n.val p ∧ Display.isOn s.display p = true) → t.reg flagReg = 1) ∧
      ((¬ ∃ p, SpriteCovers s x y n.val p ∧ Display.isOn s.display p = true) → t.reg flagReg = 0)) ∧
    (1 ≤ n.val → 0xFFF < s.index.toNat + n.val - 1 → ∃ t, exec (.draw x y n) s = .next t ∧
      FaultsWith .outOfBounds (.draw x y n) s t)

/-- R161: draw with `n = 0` writes 0 to `VF`, reads no memory and does not fault, wherever `I` points (the spec's decision
D25; log entry 18). -/
def Obligations.DrawOfNoRowsClearsTheFlag : Prop :=
  ∀ (s : State) (x y : RegIdx), ∃ t, exec (.draw x y 0) s = .next t ∧ t.reg flagReg = 0 ∧
    Keeps { regs := [flagReg] } s t

/-- R161 (the source's property): drawing the same sprite twice at the same coordinates restores the whole display, and the
second draw reports a collision exactly if some cell of the sprite was off before the first. The coordinates are the same
when neither of them is `VF`, which the first draw writes. -/
def Obligations.DrawTwiceRestoresTheDisplay : Prop :=
  ∀ (s : State) (x y : RegIdx) (n : Fin 16), s.cfg.wf → Display.wf s.cfg s.display → x ≠ flagReg → y ≠ flagReg →
    (n.val = 0 ∨ s.index.toNat + n.val - 1 ≤ 0xFFF) →
    ∃ t u, exec (.draw x y n) s = .next t ∧ exec (.draw x y n) t = .next u ∧ u.display = s.display ∧
      (u.reg flagReg = 1 ↔ ∃ p, SpriteCovers s x y n.val p ∧ Display.isOn s.display p = false)

/-- R162, R163: the key skips, for any answer `b` of the keypad; a value above 15 faults and asks nothing (the spec's decision
D10; log entries 2 and 13). -/
def Obligations.KeySkips : Prop :=
  ∀ (s : State) (x : RegIdx),
    (∀ (k : Key) (b : Bool), (s.reg x).toNat = k.val → s.keyDownAnswer k = b →
      (∃ t, exec (.keyPressed x) s = .next t ∧ t.pc = (if b = true then s.pc + 2 else s.pc) ∧
        Keeps { parts := [.pc, .env] } s t) ∧
      (∃ t, exec (.keyNotPressed x) s = .next t ∧ t.pc = (if b = true then s.pc else s.pc + 2) ∧
        Keeps { parts := [.pc, .env] } s t)) ∧
    (15 < (s.reg x).toNat →
      (∃ t, exec (.keyPressed x) s = .next t ∧ FaultsWith .outOfBounds (.keyPressed x) s t) ∧
      (∃ t, exec (.keyNotPressed x) s = .next t ∧ FaultsWith .outOfBounds (.keyNotPressed x) s t))

/-- R165: wait-key polls once, and stores the key that the poll answers, or cancels the advance and leaves the machine
AwaitingInput (the spec's decision D16; log entries 2 and 19). -/
def Obligations.WaitKeyPollsOnce : Prop :=
  ∀ (s : State) (x : RegIdx),
    (∀ k, s.keyPressAnswer = some k → ∃ t, exec (.waitKey x) s = .next t ∧ (t.reg x).toNat = k.val ∧
      t.env = s.keyPressAsked.env ∧ Keeps { regs := [x], parts := [.env] } s t) ∧
    (s.keyPressAnswer = none → ∃ t, exec (.waitKey x) s = .next t ∧ t.pc = s.pc - 2 ∧
      t.runState = .awaitingInput ∧ t.env = s.keyPressAsked.env ∧ Keeps { parts := [.pc, .run, .env] } s t)

/-- R166, R167: set-delay and set-sound; that the host's flag is then `Vx != 0` is the spec's decision D17 (log entry 27). -/
def Obligations.TimerWrites : Prop :=
  ∀ (s : State) (x : RegIdx),
    (∃ t, exec (.setDelay x) s = .next t ∧ t.dt = s.reg x ∧ Keeps { parts := [.delay] } s t) ∧
    (∃ t, exec (.setSound x) s = .next t ∧ t.st = s.reg x ∧ t.soundActive = decide (s.reg x ≠ 0) ∧
      Keeps { parts := [.sound] } s t)

/-- R191, R192: a tick lowers its own timer by 1 to a floor of 0, in every run state, and the sound flag is `ST != 0` (the
spec's decision D17; log entries 7 and 27). -/
def Obligations.TicksCountDownToZero : Prop :=
  ∀ s : State,
    (s.tickDelay.dt.toNat = s.dt.toNat - 1 ∧ Keeps { parts := [.delay] } s s.tickDelay) ∧
    (s.tickSound.st.toNat = s.st.toNat - 1 ∧ Keeps { parts := [.sound] } s s.tickSound) ∧
    (s.soundActive = true ↔ s.st.toNat ≠ 0)

/-! ## Rules of the whole machine -/

/-- R48 (with R25, R26, R27, R31): which instructions write which storage. Every step leaves the stack alone unless it runs call
or return, memory unless bcd-store or reg-dump, the display unless clear-display or draw, `DT` unless set-delay, `ST`
unless set-sound; and it never changes the parameters. -/
def Obligations.StorageIsWrittenByItsInstructionsOnly : Prop :=
  ∀ s t : State, step s = .next t →
    ((∀ nnn, s.nextInstr ≠ some (.call nnn)) → s.nextInstr ≠ some .ret → t.stack = s.stack ∧ t.sp = s.sp) ∧
    ((∀ x, s.nextInstr ≠ some (.bcdStore x)) → (∀ x, s.nextInstr ≠ some (.regDump x)) →
      ∀ a, t.memRead a = s.memRead a) ∧
    (s.nextInstr ≠ some .clearDisplay → (∀ x y n, s.nextInstr ≠ some (.draw x y n)) → t.display = s.display) ∧
    ((∀ x, s.nextInstr ≠ some (.setDelay x)) → t.dt = s.dt) ∧
    ((∀ x, s.nextInstr ≠ some (.setSound x)) → t.st = s.st) ∧
    t.cfg = s.cfg

/-- R21, R22, R23: an instruction writes no register but its destination and, for six operations, `VF`; and `I` is written by
load-index, add-index and sprite-address alone (the spec's decisions D14 and D22; log entries 14 and 15). -/
def Obligations.RegistersAreWrittenByTheirInstructionsOnly : Prop :=
  ∀ (i : Instr) (s t : State), exec i s = .next t →
    (∀ r, ¬ MayWriteReg i r → t.reg r = s.reg r) ∧
    ((∀ nnn, i ≠ .loadIndex nnn) → (∀ x, i ≠ .addIndex x) → (∀ x, i ≠ .spriteAddress x) → t.index = s.index)

/-- R90: a step asks at most one question of the environment, and only random-and, key-pressed, key-not-pressed and wait-key
ask one. -/
def Obligations.OneQuestionAStep : Prop :=
  ∀ s t : State, step s = .next t →
    t.env.asked ≤ s.env.asked + 1 ∧
    ((∀ x kk, s.nextInstr ≠ some (.randomAnd x kk)) → (∀ x, s.nextInstr ≠ some (.keyPressed x)) →
      (∀ x, s.nextInstr ≠ some (.keyNotPressed x)) → (∀ x, s.nextInstr ≠ some (.waitKey x)) → t.env = s.env)

/-- R219: between one set-delay and the next, `DT` never increases, whatever steps and host moves come (a boot apart), so
once 0 it stays 0. -/
def Obligations.DelayTimerOnlyFalls : Prop :=
  ∀ (e : Event) (s t : State), e.apply s = .next t → (∀ image, e ≠ .host (.boot image)) →
    (e = .step → ∀ x, s.nextInstr ≠ some (.setDelay x)) → t.dt.toNat ≤ s.dt.toNat

/-- R35, R36: the state after reset, byte by byte for memory (the spec's decisions D8, D11, D12 and D15 for the values that the
source does not name; log entry 8). -/
def Obligations.ResetState : Prop :=
  (∀ r, State.reset.reg r = 0) ∧ State.reset.pc = 0x200 ∧ State.reset.index = 0 ∧ State.reset.sp = 0 ∧
    (∀ j : Fin 16, State.reset.stack[j] = 0) ∧ State.reset.dt = 0 ∧ State.reset.st = 0 ∧
    State.reset.runState = .running ∧ State.reset.fault = none ∧ (∀ p, Display.isOn State.reset.display p = false) ∧
    (∀ (d : Fin 16) (k : Fin 5), State.reset.memRead (5 * d.val + k.val) = some (defaultGlyphs[d][k])) ∧
    (∀ a, 80 ≤ a → a ≤ 0xFFF → State.reset.memRead a = some 0)

/-- R211: the loader puts byte `i` of the image at `ENTRY + i` and changes nothing else, and refuses an image that is longer
than `MEM_SIZE - ENTRY` (log entry 9). -/
def Obligations.ProgramLoadPlacesTheImage : Prop :=
  ∀ (s : State) (image : List Byte), s.cfg.wf →
    (s.cfg.entry.toNat + image.length ≤ 4096 → ∃ t, s.loadProgram image = .next t ∧
      (∀ k b, image[k]? = some b → t.memRead (s.cfg.entry.toNat + k) = some b) ∧
      Keeps { storeBase := s.cfg.entry.toNat, storeLen := image.length } s t) ∧
    (4096 < s.cfg.entry.toNat + image.length → s.loadProgram image = .refused .imageTooLong)

/-! ## The invariant -/

/-- R35, R37: the machine after reset meets the invariant, whatever legal parameters it has. The reset values rest on the
spec's decisions D11, D12 and D15 (log entry 8); the canonical forms of memory and display in the invariant are the model's
own DESIGN CHOICE (log entries 23 and 17), its bound on the entry address is DEDUCED (log entry 1). -/
def Obligations.ResetMeetsTheInvariant : Prop :=
  State.reset.Inv ∧ ∀ cfg : Config, cfg.wf → (State.resetWith cfg).Inv

/-- R24, R25, R29, R30, R37: every step keeps the invariant. Its clauses that memory and display stay in canonical form are the
model's own DESIGN CHOICE (log entries 23 and 17), the bound on the entry address is DEDUCED (log entry 1), and the clause on
a waiting machine is the spec's decision D16 (log entry 19). -/
def Obligations.StepKeepsTheInvariant : Prop :=
  ∀ s t : State, s.Inv → step s = .next t → t.Inv

/-- R89, R191, R210, R211: every host move keeps the invariant. Its canonical forms of memory and display are the model's own
DESIGN CHOICE (log entries 23 and 17), and the bound on the entry address, which boot needs, is DEDUCED (log entry 1). -/
def Obligations.HostMovesKeepTheInvariant : Prop :=
  ∀ (m : HostMove) (s t : State), s.Inv → m.apply s = .next t → t.Inv

/-- R29: AwaitingInput never leads to Faulted: the re-executed wait-key can raise no fault. -/
def Obligations.WaitingMachineNeverFaults : Prop :=
  ∀ s : State, s.Inv → s.runState = .awaitingInput → ∃ t, step s = .next t ∧ t.runState ≠ .faulted

/-- R37, R89: under every schedule of steps and host moves, what a run reaches from a state that meets the invariant meets it
too; so `sp` counts valid return addresses, and a record stands exactly in Faulted. That memory and display stay in canonical
form is the model's own DESIGN CHOICE (log entries 23 and 17), not R37's; the bound on the entry address is DEDUCED (log entry
1), and the clause on a waiting machine is the spec's decision D16 (log entry 19). -/
def Obligations.EveryScheduleKeepsTheInvariant : Prop :=
  ∀ (es : List Event) (s t : State), s.Inv → runEvents es s = .next t → t.Inv

/-! ## Reset by the host -/

/-- R210 (with R35, R36, R211): from every state, Halted and Faulted included, the host's boot leaves every register, `I`, `sp`,
every stack slot and both timers at 0, `pc` at `ENTRY`, the machine Running with no record, the display off, and in memory the
image, then the glyphs, then 0; it keeps the parameters and the environment's answers. The values that the source does not
name are the spec's decisions D8, D11, D12 and D15 (log entry 8); that the answers are kept is the model's choice (log entry
2), and an image that does not fit is refused (log entry 9). -/
def Obligations.BootRebuildsTheMachine : Prop :=
  ∀ (s : State) (image : List Byte), s.cfg.wf →
    (s.cfg.entry.toNat + image.length ≤ 4096 → ∃ t, HostMove.apply (.boot image) s = .next t ∧
      (∀ r, t.reg r = 0) ∧ t.index = 0 ∧ t.pc = s.cfg.entry ∧ t.sp = 0 ∧ (∀ j : Fin 16, t.stack[j] = 0) ∧
      t.dt = 0 ∧ t.st = 0 ∧ t.runState = .running ∧ t.fault = none ∧ (∀ p, Display.isOn t.display p = false) ∧
      t.cfg = s.cfg ∧ t.env = s.env ∧
      (∀ k b, image[k]? = some b → t.memRead (s.cfg.entry.toNat + k) = some b) ∧
      (∀ a, ¬ (s.cfg.entry.toNat ≤ a ∧ a < s.cfg.entry.toNat + image.length) →
        (∀ (d : Fin 16) (k : Fin 5), a = s.cfg.fontBase.toNat + 5 * d.val + k.val →
          t.memRead a = some (s.cfg.glyphs[d][k])) ∧
        (¬ (s.cfg.fontBase.toNat ≤ a ∧ a < s.cfg.fontBase.toNat + 80) → a ≤ 0xFFF → t.memRead a = some 0))) ∧
    (4096 < s.cfg.entry.toNat + image.length → HostMove.apply (.boot image) s = .refused .imageTooLong)
end

