-- ==== Sys2Proof/Machine/Assembly.lean ====
section
/-! DEFINITION. The spec's way of writing an instruction (R73, D19): notation only, no rule depends on it. -/

namespace Sys2Proof

/-- The hex digit of a 4-bit value, as R73 writes register names. -/
def hexDigitString (d : RegIdx) : String := String.singleton (Nat.digitChar d.val).toUpper

/-- `V0` to `VF` (R73). -/
def regString (r : RegIdx) : String := "V" ++ hexDigitString r

/-- `kk` in hex (R73). -/
def byteString (b : Byte) : String :=
  "0x" ++ hexDigitString (b.extractLsb' 4 4).toFin ++ hexDigitString (b.extractLsb' 0 4).toFin

/-- `nnn` in hex (R73). -/
def addrString (a : Addr12) : String :=
  "0x" ++ hexDigitString (a.extractLsb' 8 4).toFin ++ hexDigitString (a.extractLsb' 4 4).toFin ++
    hexDigitString (a.extractLsb' 0 4).toFin

/-- The operands of an instruction, in the order of R73. shift-right and shift-left show `Vx` alone. -/
def operandStrings : Instr → List String
  | .halt | .clearDisplay | .ret => []
  | .jump nnn | .call nnn | .loadIndex nnn | .jumpWithOffset nnn => [addrString nnn]
  | .skipEqByte x kk | .skipNeByte x kk | .loadImmediate x kk | .addImmediate x kk | .randomAnd x kk =>
    [regString x, byteString kk]
  | .skipEqReg x y | .skipNeReg x y | .move x y | .or x y | .and x y | .xor x y | .addReg x y | .sub x y | .subn x y =>
    [regString x, regString y]
  | .shiftRight x _ | .shiftLeft x _ => [regString x]
  | .draw x y n => [regString x, regString y, "0x" ++ hexDigitString n]
  | .keyPressed x | .keyNotPressed x | .getDelay x | .waitKey x | .setDelay x | .setSound x | .addIndex x
  | .spriteAddress x | .bcdStore x | .regDump x | .regLoad x => [regString x]

/-- `mnemonic operand, operand, ...` (R73). -/
def disassemble (i : Instr) : String :=
  match operandStrings i with
  | [] => (opcodeRow i).mnemonic
  | os => (opcodeRow i).mnemonic ++ " " ++ ", ".intercalate os

end Sys2Proof
end

