-- ==== Sys2Proof/Laws/Decode.lean ====
section
/-! SUPPORT. What the field extraction gives of a word that the encoder's three layouts make, and of any word: the facts
that the round trips between decoder and encoder rest on. -/

namespace Sys2Proof

/-- The six fields as quotients and remainders of the word (R61). -/
theorem fieldsOf_nat (w : Word) :
    (fieldsOf w).op.val = w.toNat / 4096 ∧ (fieldsOf w).x.val = w.toNat / 256 % 16 ∧
      (fieldsOf w).y.val = w.toNat / 16 % 16 ∧ (fieldsOf w).n.val = w.toNat % 16 ∧
      (fieldsOf w).kk.toNat = w.toNat % 256 ∧ (fieldsOf w).nnn.toNat = w.toNat % 4096 := by
  have := w.isLt
  change (w.extractLsb' 12 4).toNat = _ ∧ (w.extractLsb' 8 4).toNat = _ ∧ (w.extractLsb' 4 4).toNat = _ ∧
    (w.extractLsb' 0 4).toNat = _ ∧ (w.extractLsb' 0 8).toNat = _ ∧ (w.extractLsb' 0 12).toNat = _
  simp only [BitVec.extractLsb'_toNat, Nat.shiftRight_eq_div_pow]
  refine ⟨?_, ?_, ?_, ?_, ?_, ?_⟩ <;> first | trivial | omega

theorem wordNNN_toNat (op : Nibble) (nnn : Addr12) : (wordNNN op nnn).toNat = op.toNat * 4096 + nnn.toNat := by
  rw [wordNNN, BitVec.toNat_append, ← Nat.shiftLeft_add_eq_or_of_lt nnn.isLt, Nat.shiftLeft_eq]

theorem wordXKK_toNat (op : Nibble) (x : RegIdx) (kk : Byte) :
    (wordXKK op x kk).toNat = op.toNat * 4096 + x.val * 256 + kk.toNat := by
  have hx : (nibbleOf x).toNat = x.val := rfl
  rw [wordXKK, BitVec.toNat_append, ← Nat.shiftLeft_add_eq_or_of_lt kk.isLt, Nat.shiftLeft_eq, BitVec.toNat_append,
    ← Nat.shiftLeft_add_eq_or_of_lt (nibbleOf x).isLt, Nat.shiftLeft_eq, hx]
  omega

theorem wordXYN_toNat (op : Nibble) (x y n : RegIdx) :
    (wordXYN op x y n).toNat = op.toNat * 4096 + x.val * 256 + y.val * 16 + n.val := by
  have hx : (nibbleOf x).toNat = x.val := rfl
  have hy : (nibbleOf y).toNat = y.val := rfl
  have hn : (nibbleOf n).toNat = n.val := rfl
  rw [wordXYN, BitVec.toNat_append, ← Nat.shiftLeft_add_eq_or_of_lt (nibbleOf n).isLt, Nat.shiftLeft_eq,
    BitVec.toNat_append, ← Nat.shiftLeft_add_eq_or_of_lt (nibbleOf y).isLt, Nat.shiftLeft_eq, BitVec.toNat_append,
    ← Nat.shiftLeft_add_eq_or_of_lt (nibbleOf x).isLt, Nat.shiftLeft_eq, hx, hy, hn]
  omega

/-- The fields of a word of format NNN. -/
theorem fieldsOf_wordNNN (op : Nibble) (nnn : Addr12) :
    (fieldsOf (wordNNN op nnn)).op.val = op.toNat ∧ (fieldsOf (wordNNN op nnn)).nnn = nnn := by
  obtain ⟨hop, -, -, -, -, hnnn⟩ := fieldsOf_nat (wordNNN op nnn)
  have := nnn.isLt
  rw [wordNNN_toNat] at hop hnnn
  exact ⟨by omega, BitVec.eq_of_toNat_eq (by omega)⟩

/-- The fields of a word of format XKK or XFF. -/
theorem fieldsOf_wordXKK (op : Nibble) (x : RegIdx) (kk : Byte) :
    (fieldsOf (wordXKK op x kk)).op.val = op.toNat ∧ (fieldsOf (wordXKK op x kk)).x = x ∧
      (fieldsOf (wordXKK op x kk)).kk = kk := by
  obtain ⟨hop, hx, -, -, hkk, -⟩ := fieldsOf_nat (wordXKK op x kk)
  have := kk.isLt
  rw [wordXKK_toNat] at hop hx hkk
  exact ⟨by omega, Fin.ext (by omega), BitVec.eq_of_toNat_eq (by omega)⟩

/-- The fields of a word of format XYF or XYN. -/
theorem fieldsOf_wordXYN (op : Nibble) (x y n : RegIdx) :
    (fieldsOf (wordXYN op x y n)).op.val = op.toNat ∧ (fieldsOf (wordXYN op x y n)).x = x ∧
      (fieldsOf (wordXYN op x y n)).y = y ∧ (fieldsOf (wordXYN op x y n)).n = n := by
  obtain ⟨hop, hx, hy, hn, -, -⟩ := fieldsOf_nat (wordXYN op x y n)
  rw [wordXYN_toNat] at hop hx hy hn
  exact ⟨by omega, Fin.ext (by omega), Fin.ext (by omega), Fin.ext (by omega)⟩

theorem nibble_and_ones (a : Nibble) : a &&& 0xF = a := by
  revert a
  decide

theorem and_zero_field {w : Nat} (a : BitVec w) : a &&& 0 = 0 := by simp

/-- The mask 0xF000 keeps the leading nibble of format NNN (R75). -/
theorem wordNNN_masked (op : Nibble) (nnn : Addr12) : wordNNN op nnn &&& 0xF000 = wordNNN op 0 := by
  change (op ++ nnn) &&& ((0xF : Nibble) ++ (0 : Addr12)) = op ++ (0 : Addr12)
  rw [BitVec.and_append, nibble_and_ones, and_zero_field]

/-- The mask 0xF000 keeps the leading nibble of format XKK (R75). -/
theorem wordXKK_masked (op : Nibble) (x : RegIdx) (kk : Byte) : wordXKK op x kk &&& 0xF000 = wordXKK op 0 0 := by
  change (op ++ nibbleOf x ++ kk) &&& ((0xF : Nibble) ++ (0 : Nibble) ++ (0 : Byte)) = op ++ (0 : Nibble) ++ (0 : Byte)
  rw [BitVec.and_append, BitVec.and_append, nibble_and_ones, and_zero_field, and_zero_field]

/-- The mask 0xF0FF keeps the leading nibble and the function byte of format XFF (R75). -/
theorem wordXFF_masked (op : Nibble) (x : RegIdx) (kk : Byte) : wordXKK op x kk &&& 0xF0FF = wordXKK op 0 kk := by
  change (op ++ nibbleOf x ++ kk) &&& ((0xF : Nibble) ++ (0 : Nibble) ++ (0xFF : Byte)) = op ++ (0 : Nibble) ++ kk
  have hkk : kk &&& 0xFF = kk := by
    revert kk
    decide
  rw [BitVec.and_append, BitVec.and_append, nibble_and_ones, and_zero_field, hkk]

/-- The mask 0xF00F keeps the leading nibble and the function nibble of format XYF (R75). -/
theorem wordXYF_masked (op : Nibble) (x y n : RegIdx) : wordXYN op x y n &&& 0xF00F = wordXYN op 0 0 n := by
  change (op ++ nibbleOf x ++ nibbleOf y ++ nibbleOf n) &&&
    ((0xF : Nibble) ++ (0 : Nibble) ++ (0 : Nibble) ++ (0xF : Nibble)) =
      op ++ (0 : Nibble) ++ (0 : Nibble) ++ nibbleOf n
  rw [BitVec.and_append, BitVec.and_append, BitVec.and_append, nibble_and_ones, nibble_and_ones, and_zero_field,
    and_zero_field]

/-- The mask 0xF000 keeps the leading nibble of format XYN (R75). -/
theorem wordXYN_masked (op : Nibble) (x y n : RegIdx) : wordXYN op x y n &&& 0xF000 = wordXYN op 0 0 0 := by
  change (op ++ nibbleOf x ++ nibbleOf y ++ nibbleOf n) &&&
    ((0xF : Nibble) ++ (0 : Nibble) ++ (0 : Nibble) ++ (0 : Nibble)) =
      op ++ (0 : Nibble) ++ (0 : Nibble) ++ (0 : Nibble)
  rw [BitVec.and_append, BitVec.and_append, BitVec.and_append, nibble_and_ones, and_zero_field, and_zero_field,
    and_zero_field]

end Sys2Proof
end

