-- ==== Sys2Proof/Laws/State.lean ====
section
/-! SUPPORT. One lemma for each field of State and each update of Machine/Ops.lean, true by rfl, so that no proof unfolds a
record update; then the reads of one register and of one byte after an update. -/

namespace Sys2Proof.Machine

@[simp] theorem memSize_eq : Config.memSize = 4096 := rfl

@[simp] theorem stackDepth_eq : Config.stackDepth = 16 := rfl

@[simp] theorem fontBytes_eq : Config.fontBytes = 80 := rfl

@[simp] theorem State.setReg_cfg (s : State) (r : RegIdx) (b : Byte) : (s.setReg r b).cfg = s.cfg := rfl
@[simp] theorem State.setReg_v (s : State) (r : RegIdx) (b : Byte) : (s.setReg r b).v = s.v.set r b := rfl
@[simp] theorem State.setReg_index (s : State) (r : RegIdx) (b : Byte) : (s.setReg r b).index = s.index := rfl
@[simp] theorem State.setReg_pc (s : State) (r : RegIdx) (b : Byte) : (s.setReg r b).pc = s.pc := rfl
@[simp] theorem State.setReg_stack (s : State) (r : RegIdx) (b : Byte) : (s.setReg r b).stack = s.stack := rfl
@[simp] theorem State.setReg_sp (s : State) (r : RegIdx) (b : Byte) : (s.setReg r b).sp = s.sp := rfl
@[simp] theorem State.setReg_dt (s : State) (r : RegIdx) (b : Byte) : (s.setReg r b).dt = s.dt := rfl
@[simp] theorem State.setReg_st (s : State) (r : RegIdx) (b : Byte) : (s.setReg r b).st = s.st := rfl
@[simp] theorem State.setReg_mem (s : State) (r : RegIdx) (b : Byte) : (s.setReg r b).mem = s.mem := rfl
@[simp] theorem State.setReg_runState (s : State) (r : RegIdx) (b : Byte) : (s.setReg r b).runState = s.runState := rfl
@[simp] theorem State.setReg_fault (s : State) (r : RegIdx) (b : Byte) : (s.setReg r b).fault = s.fault := rfl
@[simp] theorem State.setReg_display (s : State) (r : RegIdx) (b : Byte) : (s.setReg r b).display = s.display := rfl
@[simp] theorem State.setReg_env (s : State) (r : RegIdx) (b : Byte) : (s.setReg r b).env = s.env := rfl

@[simp] theorem State.setRegs_cfg (s : State) (bs : List Byte) : (s.setRegs bs).cfg = s.cfg := rfl
@[simp] theorem State.setRegs_v (s : State) (bs : List Byte) : (s.setRegs bs).v = Vector.ofFn fun r : Fin 16 => (bs[r.val]?).getD (s.v[r]) := rfl
@[simp] theorem State.setRegs_index (s : State) (bs : List Byte) : (s.setRegs bs).index = s.index := rfl
@[simp] theorem State.setRegs_pc (s : State) (bs : List Byte) : (s.setRegs bs).pc = s.pc := rfl
@[simp] theorem State.setRegs_stack (s : State) (bs : List Byte) : (s.setRegs bs).stack = s.stack := rfl
@[simp] theorem State.setRegs_sp (s : State) (bs : List Byte) : (s.setRegs bs).sp = s.sp := rfl
@[simp] theorem State.setRegs_dt (s : State) (bs : List Byte) : (s.setRegs bs).dt = s.dt := rfl
@[simp] theorem State.setRegs_st (s : State) (bs : List Byte) : (s.setRegs bs).st = s.st := rfl
@[simp] theorem State.setRegs_mem (s : State) (bs : List Byte) : (s.setRegs bs).mem = s.mem := rfl
@[simp] theorem State.setRegs_runState (s : State) (bs : List Byte) : (s.setRegs bs).runState = s.runState := rfl
@[simp] theorem State.setRegs_fault (s : State) (bs : List Byte) : (s.setRegs bs).fault = s.fault := rfl
@[simp] theorem State.setRegs_display (s : State) (bs : List Byte) : (s.setRegs bs).display = s.display := rfl
@[simp] theorem State.setRegs_env (s : State) (bs : List Byte) : (s.setRegs bs).env = s.env := rfl

@[simp] theorem State.setIndex_cfg (s : State) (a : Word) : (s.setIndex a).cfg = s.cfg := rfl
@[simp] theorem State.setIndex_v (s : State) (a : Word) : (s.setIndex a).v = s.v := rfl
@[simp] theorem State.setIndex_index (s : State) (a : Word) : (s.setIndex a).index = a := rfl
@[simp] theorem State.setIndex_pc (s : State) (a : Word) : (s.setIndex a).pc = s.pc := rfl
@[simp] theorem State.setIndex_stack (s : State) (a : Word) : (s.setIndex a).stack = s.stack := rfl
@[simp] theorem State.setIndex_sp (s : State) (a : Word) : (s.setIndex a).sp = s.sp := rfl
@[simp] theorem State.setIndex_dt (s : State) (a : Word) : (s.setIndex a).dt = s.dt := rfl
@[simp] theorem State.setIndex_st (s : State) (a : Word) : (s.setIndex a).st = s.st := rfl
@[simp] theorem State.setIndex_mem (s : State) (a : Word) : (s.setIndex a).mem = s.mem := rfl
@[simp] theorem State.setIndex_runState (s : State) (a : Word) : (s.setIndex a).runState = s.runState := rfl
@[simp] theorem State.setIndex_fault (s : State) (a : Word) : (s.setIndex a).fault = s.fault := rfl
@[simp] theorem State.setIndex_display (s : State) (a : Word) : (s.setIndex a).display = s.display := rfl
@[simp] theorem State.setIndex_env (s : State) (a : Word) : (s.setIndex a).env = s.env := rfl

@[simp] theorem State.setPc_cfg (s : State) (a : Word) : (s.setPc a).cfg = s.cfg := rfl
@[simp] theorem State.setPc_v (s : State) (a : Word) : (s.setPc a).v = s.v := rfl
@[simp] theorem State.setPc_index (s : State) (a : Word) : (s.setPc a).index = s.index := rfl
@[simp] theorem State.setPc_pc (s : State) (a : Word) : (s.setPc a).pc = a := rfl
@[simp] theorem State.setPc_stack (s : State) (a : Word) : (s.setPc a).stack = s.stack := rfl
@[simp] theorem State.setPc_sp (s : State) (a : Word) : (s.setPc a).sp = s.sp := rfl
@[simp] theorem State.setPc_dt (s : State) (a : Word) : (s.setPc a).dt = s.dt := rfl
@[simp] theorem State.setPc_st (s : State) (a : Word) : (s.setPc a).st = s.st := rfl
@[simp] theorem State.setPc_mem (s : State) (a : Word) : (s.setPc a).mem = s.mem := rfl
@[simp] theorem State.setPc_runState (s : State) (a : Word) : (s.setPc a).runState = s.runState := rfl
@[simp] theorem State.setPc_fault (s : State) (a : Word) : (s.setPc a).fault = s.fault := rfl
@[simp] theorem State.setPc_display (s : State) (a : Word) : (s.setPc a).display = s.display := rfl
@[simp] theorem State.setPc_env (s : State) (a : Word) : (s.setPc a).env = s.env := rfl

@[simp] theorem State.setStack_cfg (s : State) (k : Vector Word 16) (p : Fin 17) : (s.setStack k p).cfg = s.cfg := rfl
@[simp] theorem State.setStack_v (s : State) (k : Vector Word 16) (p : Fin 17) : (s.setStack k p).v = s.v := rfl
@[simp] theorem State.setStack_index (s : State) (k : Vector Word 16) (p : Fin 17) : (s.setStack k p).index = s.index := rfl
@[simp] theorem State.setStack_pc (s : State) (k : Vector Word 16) (p : Fin 17) : (s.setStack k p).pc = s.pc := rfl
@[simp] theorem State.setStack_stack (s : State) (k : Vector Word 16) (p : Fin 17) : (s.setStack k p).stack = k := rfl
@[simp] theorem State.setStack_sp (s : State) (k : Vector Word 16) (p : Fin 17) : (s.setStack k p).sp = p := rfl
@[simp] theorem State.setStack_dt (s : State) (k : Vector Word 16) (p : Fin 17) : (s.setStack k p).dt = s.dt := rfl
@[simp] theorem State.setStack_st (s : State) (k : Vector Word 16) (p : Fin 17) : (s.setStack k p).st = s.st := rfl
@[simp] theorem State.setStack_mem (s : State) (k : Vector Word 16) (p : Fin 17) : (s.setStack k p).mem = s.mem := rfl
@[simp] theorem State.setStack_runState (s : State) (k : Vector Word 16) (p : Fin 17) : (s.setStack k p).runState = s.runState := rfl
@[simp] theorem State.setStack_fault (s : State) (k : Vector Word 16) (p : Fin 17) : (s.setStack k p).fault = s.fault := rfl
@[simp] theorem State.setStack_display (s : State) (k : Vector Word 16) (p : Fin 17) : (s.setStack k p).display = s.display := rfl
@[simp] theorem State.setStack_env (s : State) (k : Vector Word 16) (p : Fin 17) : (s.setStack k p).env = s.env := rfl

@[simp] theorem State.setDelay_cfg (s : State) (b : Byte) : (s.setDelay b).cfg = s.cfg := rfl
@[simp] theorem State.setDelay_v (s : State) (b : Byte) : (s.setDelay b).v = s.v := rfl
@[simp] theorem State.setDelay_index (s : State) (b : Byte) : (s.setDelay b).index = s.index := rfl
@[simp] theorem State.setDelay_pc (s : State) (b : Byte) : (s.setDelay b).pc = s.pc := rfl
@[simp] theorem State.setDelay_stack (s : State) (b : Byte) : (s.setDelay b).stack = s.stack := rfl
@[simp] theorem State.setDelay_sp (s : State) (b : Byte) : (s.setDelay b).sp = s.sp := rfl
@[simp] theorem State.setDelay_dt (s : State) (b : Byte) : (s.setDelay b).dt = b := rfl
@[simp] theorem State.setDelay_st (s : State) (b : Byte) : (s.setDelay b).st = s.st := rfl
@[simp] theorem State.setDelay_mem (s : State) (b : Byte) : (s.setDelay b).mem = s.mem := rfl
@[simp] theorem State.setDelay_runState (s : State) (b : Byte) : (s.setDelay b).runState = s.runState := rfl
@[simp] theorem State.setDelay_fault (s : State) (b : Byte) : (s.setDelay b).fault = s.fault := rfl
@[simp] theorem State.setDelay_display (s : State) (b : Byte) : (s.setDelay b).display = s.display := rfl
@[simp] theorem State.setDelay_env (s : State) (b : Byte) : (s.setDelay b).env = s.env := rfl

@[simp] theorem State.setSound_cfg (s : State) (b : Byte) : (s.setSound b).cfg = s.cfg := rfl
@[simp] theorem State.setSound_v (s : State) (b : Byte) : (s.setSound b).v = s.v := rfl
@[simp] theorem State.setSound_index (s : State) (b : Byte) : (s.setSound b).index = s.index := rfl
@[simp] theorem State.setSound_pc (s : State) (b : Byte) : (s.setSound b).pc = s.pc := rfl
@[simp] theorem State.setSound_stack (s : State) (b : Byte) : (s.setSound b).stack = s.stack := rfl
@[simp] theorem State.setSound_sp (s : State) (b : Byte) : (s.setSound b).sp = s.sp := rfl
@[simp] theorem State.setSound_dt (s : State) (b : Byte) : (s.setSound b).dt = s.dt := rfl
@[simp] theorem State.setSound_st (s : State) (b : Byte) : (s.setSound b).st = b := rfl
@[simp] theorem State.setSound_mem (s : State) (b : Byte) : (s.setSound b).mem = s.mem := rfl
@[simp] theorem State.setSound_runState (s : State) (b : Byte) : (s.setSound b).runState = s.runState := rfl
@[simp] theorem State.setSound_fault (s : State) (b : Byte) : (s.setSound b).fault = s.fault := rfl
@[simp] theorem State.setSound_display (s : State) (b : Byte) : (s.setSound b).display = s.display := rfl
@[simp] theorem State.setSound_env (s : State) (b : Byte) : (s.setSound b).env = s.env := rfl

@[simp] theorem State.setMem_cfg (s : State) (m : Memory) : (s.setMem m).cfg = s.cfg := rfl
@[simp] theorem State.setMem_v (s : State) (m : Memory) : (s.setMem m).v = s.v := rfl
@[simp] theorem State.setMem_index (s : State) (m : Memory) : (s.setMem m).index = s.index := rfl
@[simp] theorem State.setMem_pc (s : State) (m : Memory) : (s.setMem m).pc = s.pc := rfl
@[simp] theorem State.setMem_stack (s : State) (m : Memory) : (s.setMem m).stack = s.stack := rfl
@[simp] theorem State.setMem_sp (s : State) (m : Memory) : (s.setMem m).sp = s.sp := rfl
@[simp] theorem State.setMem_dt (s : State) (m : Memory) : (s.setMem m).dt = s.dt := rfl
@[simp] theorem State.setMem_st (s : State) (m : Memory) : (s.setMem m).st = s.st := rfl
@[simp] theorem State.setMem_mem (s : State) (m : Memory) : (s.setMem m).mem = m := rfl
@[simp] theorem State.setMem_runState (s : State) (m : Memory) : (s.setMem m).runState = s.runState := rfl
@[simp] theorem State.setMem_fault (s : State) (m : Memory) : (s.setMem m).fault = s.fault := rfl
@[simp] theorem State.setMem_display (s : State) (m : Memory) : (s.setMem m).display = s.display := rfl
@[simp] theorem State.setMem_env (s : State) (m : Memory) : (s.setMem m).env = s.env := rfl

@[simp] theorem State.setRun_cfg (s : State) (r : RunState) : (s.setRun r).cfg = s.cfg := rfl
@[simp] theorem State.setRun_v (s : State) (r : RunState) : (s.setRun r).v = s.v := rfl
@[simp] theorem State.setRun_index (s : State) (r : RunState) : (s.setRun r).index = s.index := rfl
@[simp] theorem State.setRun_pc (s : State) (r : RunState) : (s.setRun r).pc = s.pc := rfl
@[simp] theorem State.setRun_stack (s : State) (r : RunState) : (s.setRun r).stack = s.stack := rfl
@[simp] theorem State.setRun_sp (s : State) (r : RunState) : (s.setRun r).sp = s.sp := rfl
@[simp] theorem State.setRun_dt (s : State) (r : RunState) : (s.setRun r).dt = s.dt := rfl
@[simp] theorem State.setRun_st (s : State) (r : RunState) : (s.setRun r).st = s.st := rfl
@[simp] theorem State.setRun_mem (s : State) (r : RunState) : (s.setRun r).mem = s.mem := rfl
@[simp] theorem State.setRun_runState (s : State) (r : RunState) : (s.setRun r).runState = r := rfl
@[simp] theorem State.setRun_fault (s : State) (r : RunState) : (s.setRun r).fault = s.fault := rfl
@[simp] theorem State.setRun_display (s : State) (r : RunState) : (s.setRun r).display = s.display := rfl
@[simp] theorem State.setRun_env (s : State) (r : RunState) : (s.setRun r).env = s.env := rfl

@[simp] theorem State.setDisplay_cfg (s : State) (fb : Display) : (s.setDisplay fb).cfg = s.cfg := rfl
@[simp] theorem State.setDisplay_v (s : State) (fb : Display) : (s.setDisplay fb).v = s.v := rfl
@[simp] theorem State.setDisplay_index (s : State) (fb : Display) : (s.setDisplay fb).index = s.index := rfl
@[simp] theorem State.setDisplay_pc (s : State) (fb : Display) : (s.setDisplay fb).pc = s.pc := rfl
@[simp] theorem State.setDisplay_stack (s : State) (fb : Display) : (s.setDisplay fb).stack = s.stack := rfl
@[simp] theorem State.setDisplay_sp (s : State) (fb : Display) : (s.setDisplay fb).sp = s.sp := rfl
@[simp] theorem State.setDisplay_dt (s : State) (fb : Display) : (s.setDisplay fb).dt = s.dt := rfl
@[simp] theorem State.setDisplay_st (s : State) (fb : Display) : (s.setDisplay fb).st = s.st := rfl
@[simp] theorem State.setDisplay_mem (s : State) (fb : Display) : (s.setDisplay fb).mem = s.mem := rfl
@[simp] theorem State.setDisplay_runState (s : State) (fb : Display) : (s.setDisplay fb).runState = s.runState := rfl
@[simp] theorem State.setDisplay_fault (s : State) (fb : Display) : (s.setDisplay fb).fault = s.fault := rfl
@[simp] theorem State.setDisplay_display (s : State) (fb : Display) : (s.setDisplay fb).display = fb := rfl
@[simp] theorem State.setDisplay_env (s : State) (fb : Display) : (s.setDisplay fb).env = s.env := rfl

@[simp] theorem State.setEnv_cfg (s : State) (e : Environment) : (s.setEnv e).cfg = s.cfg := rfl
@[simp] theorem State.setEnv_v (s : State) (e : Environment) : (s.setEnv e).v = s.v := rfl
@[simp] theorem State.setEnv_index (s : State) (e : Environment) : (s.setEnv e).index = s.index := rfl
@[simp] theorem State.setEnv_pc (s : State) (e : Environment) : (s.setEnv e).pc = s.pc := rfl
@[simp] theorem State.setEnv_stack (s : State) (e : Environment) : (s.setEnv e).stack = s.stack := rfl
@[simp] theorem State.setEnv_sp (s : State) (e : Environment) : (s.setEnv e).sp = s.sp := rfl
@[simp] theorem State.setEnv_dt (s : State) (e : Environment) : (s.setEnv e).dt = s.dt := rfl
@[simp] theorem State.setEnv_st (s : State) (e : Environment) : (s.setEnv e).st = s.st := rfl
@[simp] theorem State.setEnv_mem (s : State) (e : Environment) : (s.setEnv e).mem = s.mem := rfl
@[simp] theorem State.setEnv_runState (s : State) (e : Environment) : (s.setEnv e).runState = s.runState := rfl
@[simp] theorem State.setEnv_fault (s : State) (e : Environment) : (s.setEnv e).fault = s.fault := rfl
@[simp] theorem State.setEnv_display (s : State) (e : Environment) : (s.setEnv e).display = s.display := rfl
@[simp] theorem State.setEnv_env (s : State) (e : Environment) : (s.setEnv e).env = e := rfl

@[simp] theorem State.enterFault_cfg (s : State) (k : FaultKind) (a : Word) (w : Option Word) : (s.enterFault k a w).cfg = s.cfg := rfl
@[simp] theorem State.enterFault_v (s : State) (k : FaultKind) (a : Word) (w : Option Word) : (s.enterFault k a w).v = s.v := rfl
@[simp] theorem State.enterFault_index (s : State) (k : FaultKind) (a : Word) (w : Option Word) : (s.enterFault k a w).index = s.index := rfl
@[simp] theorem State.enterFault_pc (s : State) (k : FaultKind) (a : Word) (w : Option Word) : (s.enterFault k a w).pc = s.pc := rfl
@[simp] theorem State.enterFault_stack (s : State) (k : FaultKind) (a : Word) (w : Option Word) : (s.enterFault k a w).stack = s.stack := rfl
@[simp] theorem State.enterFault_sp (s : State) (k : FaultKind) (a : Word) (w : Option Word) : (s.enterFault k a w).sp = s.sp := rfl
@[simp] theorem State.enterFault_dt (s : State) (k : FaultKind) (a : Word) (w : Option Word) : (s.enterFault k a w).dt = s.dt := rfl
@[simp] theorem State.enterFault_st (s : State) (k : FaultKind) (a : Word) (w : Option Word) : (s.enterFault k a w).st = s.st := rfl
@[simp] theorem State.enterFault_mem (s : State) (k : FaultKind) (a : Word) (w : Option Word) : (s.enterFault k a w).mem = s.mem := rfl
@[simp] theorem State.enterFault_runState (s : State) (k : FaultKind) (a : Word) (w : Option Word) : (s.enterFault k a w).runState = .faulted := rfl
@[simp] theorem State.enterFault_fault (s : State) (k : FaultKind) (a : Word) (w : Option Word) : (s.enterFault k a w).fault = some { kind := k, faultPc := a, word := w } := rfl
@[simp] theorem State.enterFault_display (s : State) (k : FaultKind) (a : Word) (w : Option Word) : (s.enterFault k a w).display = s.display := rfl
@[simp] theorem State.enterFault_env (s : State) (k : FaultKind) (a : Word) (w : Option Word) : (s.enterFault k a w).env = s.env := rfl

theorem State.reg_setReg (s : State) (r q : RegIdx) (b : Byte) :
    (s.setReg r b).reg q = if q = r then b else s.reg q := by
  simp only [State.reg, State.setReg, Fin.getElem_fin, Vector.getElem_set, Fin.ext_iff]
  split <;> split <;> first | rfl | omega

@[simp] theorem State.reg_setReg_same (s : State) (r : RegIdx) (b : Byte) : (s.setReg r b).reg r = b := by
  simp [State.reg_setReg]

theorem State.reg_setReg_ne (s : State) (r q : RegIdx) (b : Byte) (h : q ≠ r) : (s.setReg r b).reg q = s.reg q := by
  simp [State.reg_setReg, h]

theorem State.reg_setRegs (s : State) (bs : List Byte) (q : RegIdx) :
    (s.setRegs bs).reg q = (bs[q.val]?).getD (s.reg q) := by
  simp [State.reg, State.setRegs]

@[simp] theorem State.reg_setIndex (s : State) (a : Word) (q : RegIdx) : (s.setIndex a).reg q = s.reg q := rfl
@[simp] theorem State.reg_setPc (s : State) (a : Word) (q : RegIdx) : (s.setPc a).reg q = s.reg q := rfl
@[simp] theorem State.reg_setStack (s : State) (k : Vector Word 16) (p : Fin 17) (q : RegIdx) : (s.setStack k p).reg q = s.reg q := rfl
@[simp] theorem State.reg_setDelay (s : State) (b : Byte) (q : RegIdx) : (s.setDelay b).reg q = s.reg q := rfl
@[simp] theorem State.reg_setSound (s : State) (b : Byte) (q : RegIdx) : (s.setSound b).reg q = s.reg q := rfl
@[simp] theorem State.reg_setMem (s : State) (m : Memory) (q : RegIdx) : (s.setMem m).reg q = s.reg q := rfl
@[simp] theorem State.reg_setRun (s : State) (r : RunState) (q : RegIdx) : (s.setRun r).reg q = s.reg q := rfl
@[simp] theorem State.reg_setDisplay (s : State) (fb : Display) (q : RegIdx) : (s.setDisplay fb).reg q = s.reg q := rfl
@[simp] theorem State.reg_setEnv (s : State) (e : Environment) (q : RegIdx) : (s.setEnv e).reg q = s.reg q := rfl
@[simp] theorem State.reg_enterFault (s : State) (k : FaultKind) (a : Word) (w : Option Word) (q : RegIdx) : (s.enterFault k a w).reg q = s.reg q := rfl

@[simp] theorem State.memRead_setReg (s : State) (r : RegIdx) (b : Byte) (q : Nat) : (s.setReg r b).memRead q = s.memRead q := rfl
@[simp] theorem State.memRead_setRegs (s : State) (bs : List Byte) (q : Nat) : (s.setRegs bs).memRead q = s.memRead q := rfl
@[simp] theorem State.memRead_setIndex (s : State) (a : Word) (q : Nat) : (s.setIndex a).memRead q = s.memRead q := rfl
@[simp] theorem State.memRead_setPc (s : State) (a : Word) (q : Nat) : (s.setPc a).memRead q = s.memRead q := rfl
@[simp] theorem State.memRead_setStack (s : State) (k : Vector Word 16) (p : Fin 17) (q : Nat) : (s.setStack k p).memRead q = s.memRead q := rfl
@[simp] theorem State.memRead_setDelay (s : State) (b : Byte) (q : Nat) : (s.setDelay b).memRead q = s.memRead q := rfl
@[simp] theorem State.memRead_setSound (s : State) (b : Byte) (q : Nat) : (s.setSound b).memRead q = s.memRead q := rfl
@[simp] theorem State.memRead_setRun (s : State) (r : RunState) (q : Nat) : (s.setRun r).memRead q = s.memRead q := rfl
@[simp] theorem State.memRead_setDisplay (s : State) (fb : Display) (q : Nat) : (s.setDisplay fb).memRead q = s.memRead q := rfl
@[simp] theorem State.memRead_setEnv (s : State) (e : Environment) (q : Nat) : (s.setEnv e).memRead q = s.memRead q := rfl
@[simp] theorem State.memRead_enterFault (s : State) (k : FaultKind) (a : Word) (w : Option Word) (q : Nat) : (s.enterFault k a w).memRead q = s.memRead q := rfl

theorem State.memRead_setMem (s : State) (m : Memory) (q : Nat) :
    (s.setMem m).memRead q = if q < Config.memSize then some (Memory.read s.cfg m q) else none := rfl

end Sys2Proof.Machine
end

