-- ==== Sys2Proof/Laws/Display.lean ====
section
/-! SUPPORT. The laws of the display's reference model: what one inversion and one sprite do to a cell, and that every
operation keeps the canonical form. -/

namespace Sys2Proof.Machine

theorem Display.mem_light (fb : Display) (p q : Pixel) : q ∈ Display.light fb p ↔ q = p ∨ q ∈ fb := by
  induction fb with
  | nil => simp [Display.light]
  | cons r rest ih =>
    simp only [Display.light]
    split
    · simp
    · simp only [List.mem_cons, ih]
      tauto

/-- One inversion changes its cell and no other. -/
theorem Display.isOn_toggle (fb : Display) (p q : Pixel) :
    Display.isOn (Display.toggle fb p) q = if q = p then !Display.isOn fb p else Display.isOn fb q := by
  unfold Display.toggle
  by_cases hp : p ∈ fb
  · by_cases hq : q = p
    · simp [Display.isOn, hp, hq]
    · simp [Display.isOn, hp, hq]
  · by_cases hq : q = p
    · simp [Display.isOn, hp, hq, Display.mem_light]
    · simp [Display.isOn, hp, hq, Display.mem_light]

theorem Pixel.before_trans {p q r : Pixel} (h₁ : Pixel.before p q) (h₂ : Pixel.before q r) : Pixel.before p r := by
  simp only [Pixel.before] at *
  omega

theorem Pixel.before_of_not {p q : Pixel} (hne : q ≠ p) (h : ¬ Pixel.before p q) : Pixel.before q p := by
  obtain ⟨a, b⟩ := p
  obtain ⟨c, d⟩ := q
  simp only [Pixel.before, ne_eq, Prod.mk.injEq] at *
  omega

theorem Display.light_ordered (fb : Display) (p : Pixel) (h : fb.Pairwise Pixel.before) (hp : p ∉ fb) :
    (Display.light fb p).Pairwise Pixel.before := by
  induction fb with
  | nil => simp [Display.light]
  | cons r rest ih =>
    obtain ⟨hr, hrest⟩ := List.pairwise_cons.mp h
    simp only [List.mem_cons, not_or] at hp
    simp only [Display.light]
    split
    case isTrue hlt =>
      refine List.pairwise_cons.mpr ⟨?_, h⟩
      intro c hc
      rcases List.mem_cons.mp hc with rfl | hc
      · exact hlt
      · exact Pixel.before_trans hlt (hr c hc)
    case isFalse hge =>
      refine List.pairwise_cons.mpr ⟨?_, ih hrest hp.2⟩
      intro c hc
      rcases (Display.mem_light rest p c).mp hc with rfl | hc
      · exact Pixel.before_of_not (Ne.symm hp.1) hge
      · exact hr c hc

theorem Display.wf_toggle (cfg : Config) (fb : Display) (p : Pixel) (h : Display.wf cfg fb)
    (hp : p.1 < cfg.displayH ∧ p.2 < cfg.displayW) : Display.wf cfg (Display.toggle fb p) := by
  obtain ⟨hord, hin⟩ := h
  unfold Display.toggle
  split
  · refine ⟨hord.filter _, fun q hq => hin q (List.mem_filter.mp hq).1⟩
  case isFalse hoff =>
    refine ⟨Display.light_ordered fb p hord (by simpa [Display.isOn] using hoff), ?_⟩
    intro q hq
    rcases (Display.mem_light fb p q).mp hq with rfl | hq
    · exact hp
    · exact hin q hq

theorem Display.wf_xorPixels (cfg : Config) (fb : Display) (ps : List Pixel) (h : Display.wf cfg fb)
    (hps : ∀ p ∈ ps, p.1 < cfg.displayH ∧ p.2 < cfg.displayW) : Display.wf cfg (Display.xorPixels fb ps).1 := by
  induction ps generalizing fb with
  | nil => exact h
  | cons p rest ih =>
    exact ih _ (Display.wf_toggle cfg fb p h (hps p (List.mem_cons_self ..)))
      fun q hq => hps q (List.mem_cons_of_mem _ hq)

/-- A cell that a list of inversions does not name is left as it was. -/
theorem Display.isOn_xorPixels_of_notMem (fb : Display) (ps : List Pixel) (q : Pixel) (h : q ∉ ps) :
    Display.isOn (Display.xorPixels fb ps).1 q = Display.isOn fb q := by
  induction ps generalizing fb with
  | nil => rfl
  | cons p rest ih =>
    simp only [List.mem_cons, not_or] at h
    simp [Display.xorPixels, ih _ h.2, Display.isOn_toggle, h.1]

/-- Where no cell is named twice, every named cell is inverted. -/
theorem Display.isOn_xorPixels (fb : Display) (ps : List Pixel) (q : Pixel) (h : ps.Nodup) :
    Display.isOn (Display.xorPixels fb ps).1 q = if q ∈ ps then !Display.isOn fb q else Display.isOn fb q := by
  induction ps generalizing fb with
  | nil => simp [Display.xorPixels]
  | cons p rest ih =>
    obtain ⟨hp, hrest⟩ := List.nodup_cons.mp h
    by_cases hq : q = p
    · subst hq
      simp [Display.xorPixels, Display.isOn_xorPixels_of_notMem _ _ _ hp, Display.isOn_toggle]
    · simp [Display.xorPixels, ih _ hrest, Display.isOn_toggle, hq]

/-- Where no cell is named twice, the collision flag says that a named cell was on. -/
theorem Display.collision_xorPixels (fb : Display) (ps : List Pixel) (h : ps.Nodup) :
    (Display.xorPixels fb ps).2 = ps.any fun p => Display.isOn fb p := by
  induction ps generalizing fb with
  | nil => rfl
  | cons p rest ih =>
    obtain ⟨hp, hrest⟩ := List.nodup_cons.mp h
    have hrest' : (rest.any fun q => Display.isOn (Display.toggle fb p) q) = rest.any fun q => Display.isOn fb q := by
      rw [Bool.eq_iff_iff, List.any_eq_true, List.any_eq_true]
      constructor
      · rintro ⟨q, hq, hon⟩
        have hne : q ≠ p := by rintro rfl; exact hp hq
        exact ⟨q, hq, by simpa [Display.isOn_toggle, hne] using hon⟩
      · rintro ⟨q, hq, hon⟩
        have hne : q ≠ p := by rintro rfl; exact hp hq
        exact ⟨q, hq, by simpa [Display.isOn_toggle, hne] using hon⟩
    simp [Display.xorPixels, ih _ hrest, hrest']

/-- A cell lies in a sprite exactly when a set bit of one of its rows lands there (R193). -/
theorem mem_spritePixels (cfg : Config) (x y : Nat) (rows : List Byte) (p : Pixel) :
    p ∈ spritePixels cfg x y rows ↔ ∃ r j row, rows[r]? = some row ∧ j < 8 ∧ row.getLsbD (7 - j) = true ∧
      p = ((y + r) % cfg.displayH, (x + j) % cfg.displayW) := by
  induction rows generalizing y with
  | nil => simp [spritePixels]
  | cons row rest ih =>
    simp only [spritePixels, List.mem_append, ih, rowPixels, spriteColumns, List.mem_map, List.mem_filter, List.mem_range]
    constructor
    · rintro (⟨j, ⟨hj, hbit⟩, rfl⟩ | ⟨r, j, row', hr, hj, hbit, rfl⟩)
      · exact ⟨0, j, row, by simp, hj, hbit, by simp⟩
      · exact ⟨r + 1, j, row', by simpa using hr, hj, hbit, by rw [show y + 1 + r = y + (r + 1) by omega]⟩
    · rintro ⟨r, j, row', hr, hj, hbit, rfl⟩
      cases r with
      | zero =>
        simp only [List.getElem?_cons_zero, Option.some.injEq] at hr
        subst hr
        exact Or.inl ⟨j, ⟨hj, hbit⟩, by simp⟩
      | succ r =>
        exact Or.inr ⟨r, j, row', by simpa using hr, hj, hbit, by rw [show y + 1 + r = y + (r + 1) by omega]⟩

theorem mod_injective_of_near {m x i j : Nat} (hi : i < m) (hj : j < m) (h : (x + i) % m = (x + j) % m) : i = j := by
  have := Nat.ModEq.add_left_cancel' x (show Nat.ModEq m (x + i) (x + j) from h)
  rwa [Nat.ModEq, Nat.mod_eq_of_lt hi, Nat.mod_eq_of_lt hj] at this

theorem rowPixels_nodup (cfg : Config) (x y : Nat) (row : Byte) (hw : 8 ≤ cfg.displayW) :
    (rowPixels cfg x y row).Nodup := by
  unfold rowPixels spriteColumns
  refine List.Nodup.map_on ?_ (List.nodup_range.filter _)
  intro i hi j hj heq
  simp only [List.mem_filter, List.mem_range] at hi hj
  exact mod_injective_of_near (by omega) (by omega) (Prod.mk.inj heq).2

/-- No two pixels of one sprite of at most 15 rows land on the same cell of a display that meets R5 (R193). -/
theorem spritePixels_nodup (cfg : Config) (x y : Nat) (rows : List Byte) (hw : 8 ≤ cfg.displayW)
    (hh : rows.length ≤ cfg.displayH) : (spritePixels cfg x y rows).Nodup := by
  induction rows generalizing y with
  | nil => simp [spritePixels]
  | cons row rest ih =>
    simp only [List.length_cons] at hh
    refine List.nodup_append'.mpr ⟨rowPixels_nodup cfg x y row hw, ih _ (by omega), ?_⟩
    intro p hp hq
    obtain ⟨j, -, rfl⟩ := List.mem_map.mp hp
    obtain ⟨r, j', row', hr, -, -, heq⟩ := (mem_spritePixels ..).mp hq
    have hlt : r < rest.length := (List.getElem?_eq_some_iff.mp hr).1
    have h0 : (y + 0) % cfg.displayH = (y + (r + 1)) % cfg.displayH := by
      have := (Prod.mk.inj heq).1
      rwa [show y + 1 + r = y + (r + 1) by omega] at this
    have := mod_injective_of_near (by omega) (by omega) h0
    omega

theorem spritePixels_inGrid (cfg : Config) (x y : Nat) (rows : List Byte) (hw : 0 < cfg.displayW)
    (hh : 0 < cfg.displayH) : ∀ p ∈ spritePixels cfg x y rows, p.1 < cfg.displayH ∧ p.2 < cfg.displayW := by
  intro p hp
  obtain ⟨r, j, row, -, -, -, rfl⟩ := (mem_spritePixels ..).mp hp
  exact ⟨Nat.mod_lt _ hh, Nat.mod_lt _ hw⟩

/-- Two displays in canonical form with the same lit cells are the same list. -/
theorem Display.eq_of_isOn (fb gb : Display) (hf : fb.Pairwise Pixel.before) (hg : gb.Pairwise Pixel.before)
    (h : ∀ p, Display.isOn fb p = Display.isOn gb p) : fb = gb := by
  have hirr : ∀ p : Pixel, ¬ Pixel.before p p := by
    intro p
    simp only [Pixel.before]
    omega
  have hperm : fb.Perm gb := by
    refine (List.perm_ext_iff_of_nodup ?_ ?_).mpr ?_
    · exact hf.imp (S := (· ≠ ·)) fun hab heq => hirr _ (heq ▸ hab)
    · exact hg.imp (S := (· ≠ ·)) fun hab heq => hirr _ (heq ▸ hab)
    · intro p
      simpa [Display.isOn] using h p
  refine List.Perm.eq_of_pairwise ?_ hf hg hperm
  intro p q _ _ hpq hqp
  exact absurd (Pixel.before_trans hpq hqp) (hirr p)

end Sys2Proof.Machine
end

