-- ==== Sys2Proof/Laws/Memory.lean ====
section
/-! SUPPORT. The laws of the memory list: a read after a write, and that every operation keeps the canonical form. The
reads hold of every list; the canonical form is needed only for equal memories to be equal lists. -/

namespace Sys2Proof.Machine

/-- The reset contents inside the font: byte `k` of the glyph of `d` (R36). -/
theorem Memory.unlisted_glyph (cfg : Config) (d : Fin 16) (k : Fin 5) :
    Memory.unlisted cfg (cfg.fontBase.toNat + 5 * d.val + k.val) = cfg.glyphs[d][k] := by
  have hd := d.isLt
  have hk := k.isLt
  have hq : (cfg.fontBase.toNat + 5 * d.val + k.val - cfg.fontBase.toNat) / 5 = d.val := by omega
  have hm : (cfg.fontBase.toNat + 5 * d.val + k.val - cfg.fontBase.toNat) % 5 = k.val := by omega
  rw [Memory.unlisted, dif_pos (by simp only [fontBytes_eq]; omega)]
  simp only [hq, hm]
  rfl

/-- The reset contents outside the font (R36). -/
theorem Memory.unlisted_outside (cfg : Config) (a : Nat)
    (h : ¬ (cfg.fontBase.toNat ≤ a ∧ a < cfg.fontBase.toNat + 80)) : Memory.unlisted cfg a = 0 :=
  dif_neg (by simp only [fontBytes_eq]; omega)

/-- The empty list reads as the reset contents. -/
@[simp] theorem Memory.read_nil (cfg : Config) (a : Nat) : Memory.read cfg [] a = Memory.unlisted cfg a := rfl

theorem Memory.lookup_insert (m : Memory) (a q : Nat) (b : Byte) (h : Memory.lookup m a = none) :
    Memory.lookup (Memory.insert m a b) q = if q = a then some b else Memory.lookup m q := by
  induction m with
  | nil => simp [Memory.insert, Memory.lookup, eq_comm]
  | cons c rest ih =>
    obtain ⟨k, d⟩ := c
    have hk : k ≠ a := by
      rintro rfl
      simp [Memory.lookup] at h
    have hrest : Memory.lookup rest a = none := by simpa [Memory.lookup, hk] using h
    simp only [Memory.insert]
    split
    · by_cases hq : q = a
      · simp [Memory.lookup, hq]
      · simp [Memory.lookup, hq, Ne.symm hq]
    · by_cases hq : q = k
      · subst hq
        simp [Memory.lookup, hk]
      · simp [Memory.lookup, Ne.symm hq, ih hrest]

theorem Memory.lookup_remove (m : Memory) (a q : Nat) :
    Memory.lookup (Memory.remove m a) q = if q = a then none else Memory.lookup m q := by
  induction m with
  | nil => simp [Memory.remove, Memory.lookup]
  | cons c rest ih =>
    obtain ⟨k, d⟩ := c
    simp only [Memory.remove] at ih ⊢
    by_cases hk : k = a
    · subst hk
      by_cases hq : q = k
      · subst hq
        simpa [Memory.lookup] using ih
      · simpa [Memory.lookup, hq, Ne.symm hq] using ih
    · by_cases hq : q = k
      · subst hq
        simp [Memory.lookup, hk]
      · simpa [Memory.lookup, hk, Ne.symm hq] using ih

/-- A read after a write: the byte written at its address, and what was there everywhere else. -/
theorem Memory.read_write (cfg : Config) (m : Memory) (a q : Nat) (b : Byte) :
    Memory.read cfg (Memory.write cfg m a b) q = if q = a then b else Memory.read cfg m q := by
  unfold Memory.read Memory.write
  by_cases hb : b = Memory.unlisted cfg a
  · by_cases hq : q = a
    · simp [hb, hq, Memory.lookup_remove]
    · simp [hb, hq, Memory.lookup_remove]
  · have hnone : Memory.lookup (Memory.remove m a) a = none := by simp [Memory.lookup_remove]
    by_cases hq : q = a
    · simp [hb, hq, Memory.lookup_insert _ _ _ _ hnone]
    · simp [hb, hq, Memory.lookup_insert _ _ _ _ hnone, Memory.lookup_remove]

/-- A read after a block of writes: byte `k` of the block at `base + k`, and what was there everywhere else. -/
theorem Memory.read_writeBytes (cfg : Config) (m : Memory) (base q : Nat) (bs : List Byte) :
    Memory.read cfg (Memory.writeBytes cfg m base bs) q =
      if base ≤ q ∧ q < base + bs.length then bs.getD (q - base) 0 else Memory.read cfg m q := by
  induction bs generalizing m base with
  | nil =>
    have h : ¬ (base ≤ q ∧ q < base) := by omega
    simp [Memory.writeBytes, h]
  | cons b rest ih =>
    rw [Memory.writeBytes, ih, Memory.read_write]
    simp only [List.length_cons]
    by_cases hq : q = base
    · subst hq
      simp
    · by_cases hin : base + 1 ≤ q ∧ q < base + 1 + rest.length
      · have h' : base ≤ q ∧ q < base + (rest.length + 1) := by omega
        obtain ⟨d, rfl⟩ : ∃ d, q = base + 1 + d := ⟨q - (base + 1), by omega⟩
        rw [if_pos hin, if_pos h', show base + 1 + d - (base + 1) = d by omega,
          show base + 1 + d - base = d + 1 by omega, List.getD_cons_succ]
      · have h' : ¬ (base ≤ q ∧ q < base + (rest.length + 1)) := by omega
        rw [if_neg hin, if_neg h', if_neg hq]

theorem Memory.mem_insert (m : Memory) (a : Nat) (b : Byte) (c : Host.Cell) :
    c ∈ Memory.insert m a b ↔ c = (a, b) ∨ c ∈ m := by
  induction m with
  | nil => simp [Memory.insert]
  | cons d rest ih =>
    simp only [Memory.insert]
    split
    · simp
    · simp only [List.mem_cons, ih]
      tauto

theorem Memory.insert_rising (m : Memory) (a : Nat) (b : Byte) (hm : m.Pairwise fun c d => c.1 < d.1)
    (ha : ∀ c ∈ m, c.1 ≠ a) : (Memory.insert m a b).Pairwise fun c d => c.1 < d.1 := by
  induction m with
  | nil => simp [Memory.insert]
  | cons d rest ih =>
    obtain ⟨hd, hrest⟩ := List.pairwise_cons.mp hm
    simp only [Memory.insert]
    split
    case isTrue hlt =>
      refine List.pairwise_cons.mpr ⟨?_, hm⟩
      intro c hc
      rcases List.mem_cons.mp hc with rfl | hc
      · exact hlt
      · exact Nat.lt_trans hlt (hd c hc)
    case isFalse hge =>
      refine List.pairwise_cons.mpr ⟨?_, ih hrest fun c hc => ha c (List.mem_cons_of_mem _ hc)⟩
      intro c hc
      rcases (Memory.mem_insert rest a b c).mp hc with rfl | hc
      · have := ha d (List.mem_cons_self ..)
        simp only at this hge ⊢
        omega
      · exact hd c hc

/-- A write inside memory keeps the canonical form. -/
theorem Memory.wf_write (cfg : Config) (m : Memory) (a : Nat) (b : Byte) (ha : a < Config.memSize)
    (hm : Memory.wf cfg m) : Memory.wf cfg (Memory.write cfg m a b) := by
  obtain ⟨hrise, hcells⟩ := hm
  have hr : (Memory.remove m a).Pairwise fun c d => c.1 < d.1 := hrise.filter _
  have hrc : ∀ c ∈ Memory.remove m a, c ∈ m ∧ c.1 ≠ a := by
    intro c hc
    simpa [Memory.remove] using hc
  unfold Memory.write
  split
  · exact ⟨hr, fun c hc => hcells c (hrc c hc).1⟩
  case isFalse hb =>
    refine ⟨Memory.insert_rising _ _ _ hr fun c hc => (hrc c hc).2, ?_⟩
    intro c hc
    rcases (Memory.mem_insert _ _ _ _).mp hc with rfl | hc
    · exact ⟨ha, hb⟩
    · exact hcells c (hrc c hc).1

/-- A block of writes inside memory keeps the canonical form. -/
theorem Memory.wf_writeBytes (cfg : Config) (m : Memory) (base : Nat) (bs : List Byte)
    (h : blockInRange base bs.length) (hm : Memory.wf cfg m) : Memory.wf cfg (Memory.writeBytes cfg m base bs) := by
  induction bs generalizing m base with
  | nil => exact hm
  | cons b rest ih =>
    have hlen : base + (rest.length + 1) ≤ Config.memSize := by
      rcases h with h | h
      · simp at h
      · simpa using h
    refine ih _ _ (Or.inr (by omega)) (Memory.wf_write _ _ _ _ (by omega) hm)

theorem Memory.wf_nil (cfg : Config) : Memory.wf cfg [] := ⟨List.Pairwise.nil, fun _ h => nomatch h⟩

theorem Memory.mem_of_lookup (m : Memory) (a : Nat) (b : Byte) (h : Memory.lookup m a = some b) : (a, b) ∈ m := by
  induction m with
  | nil => simp [Memory.lookup] at h
  | cons c rest ih =>
    obtain ⟨k, d⟩ := c
    simp only [Memory.lookup] at h
    split at h
    case isTrue hk => simp_all
    case isFalse hk => exact List.mem_cons_of_mem _ (ih h)

theorem Memory.lookup_of_mem (m : Memory) (a : Nat) (b : Byte) (hm : m.Pairwise fun c d => c.1 < d.1)
    (h : (a, b) ∈ m) : Memory.lookup m a = some b := by
  induction m with
  | nil => simp at h
  | cons c rest ih =>
    obtain ⟨k, d⟩ := c
    obtain ⟨hk, hrest⟩ := List.pairwise_cons.mp hm
    rcases List.mem_cons.mp h with heq | h
    · obtain ⟨rfl, rfl⟩ := Prod.mk.inj heq
      simp [Memory.lookup]
    · have : k ≠ a := Nat.ne_of_lt (hk _ h)
      simp [Memory.lookup, this, ih hrest h]

theorem Memory.mem_of_read_eq (cfg : Config) (m n : Memory) (hm : Memory.wf cfg m)
    (h : ∀ a, Memory.read cfg m a = Memory.read cfg n a) (c : Host.Cell) (hc : c ∈ m) : c ∈ n := by
  have hread : Memory.read cfg n c.1 = c.2 := by
    rw [← h, Memory.read, Memory.lookup_of_mem m c.1 c.2 hm.1 hc, Option.getD_some]
  cases hl : Memory.lookup n c.1 with
  | none =>
    rw [Memory.read, hl, Option.getD_none] at hread
    exact absurd hread.symm (hm.2 c hc).2
  | some b =>
    rw [Memory.read, hl, Option.getD_some] at hread
    have hmem := Memory.mem_of_lookup n c.1 b hl
    rw [hread] at hmem
    exact hmem

/-- Two lists in canonical form that read alike are the same list: equal memories are equal data. -/
theorem Memory.eq_of_read (cfg : Config) (m n : Memory) (hm : Memory.wf cfg m) (hn : Memory.wf cfg n)
    (h : ∀ a, Memory.read cfg m a = Memory.read cfg n a) : m = n := by
  have hperm : m.Perm n := by
    refine (List.perm_ext_iff_of_nodup ?_ ?_).mpr fun c => ?_
    · exact hm.1.imp (S := (· ≠ ·)) fun hab heq => Nat.lt_irrefl _ (heq ▸ hab)
    · exact hn.1.imp (S := (· ≠ ·)) fun hab heq => Nat.lt_irrefl _ (heq ▸ hab)
    · exact ⟨Memory.mem_of_read_eq cfg m n hm h c, Memory.mem_of_read_eq cfg n m hn (fun a => (h a).symm) c⟩
  refine List.Perm.eq_of_pairwise ?_ hm.1 hn.1 hperm
  intro c d _ _ hcd hdc
  exact absurd (Nat.lt_trans hcd hdc) (Nat.lt_irrefl _)

end Sys2Proof.Machine
end

