-- ==== Sys2Proof/Laws/Ops.lean ====
section
/-! SUPPORT. One lemma for each shared operation that says everything it can do; later proofs cite it instead of
unfolding the operation. -/

namespace Sys2Proof.Machine

/-! ## Memory -/

theorem State.memRead_eq_some (s : State) (a : Nat) (b : Byte) :
    s.memRead a = some b ↔ a < Config.memSize ∧ Memory.read s.cfg s.mem a = b := by
  unfold State.memRead
  split <;> simp_all

theorem State.memRead_eq_none (s : State) (a : Nat) : s.memRead a = none ↔ Config.memSize ≤ a := by
  unfold State.memRead
  split <;> simp_all

/-- `MemRead` after a store of consecutive bytes inside memory. -/
theorem State.memRead_writeBytes (s : State) (base q : Nat) (bs : List Byte) (h : blockInRange base bs.length) :
    (s.setMem (Memory.writeBytes s.cfg s.mem base bs)).memRead q =
      if base ≤ q ∧ q < base + bs.length then some (bs.getD (q - base) 0) else s.memRead q := by
  rw [State.memRead_setMem, Memory.read_writeBytes]
  by_cases hq : base ≤ q ∧ q < base + bs.length
  · have : q < Config.memSize := by
      rcases h with h | h <;> omega
    simp [hq, this]
  · simp [hq, State.memRead]

/-- A block store answers a state exactly when the block is in memory, and then only memory differs. -/
theorem State.writeBlock_eq_some (s t : State) (base : Nat) (bs : List Byte) :
    s.writeBlock base bs = some t ↔
      blockInRange base bs.length ∧ t = s.setMem (Memory.writeBytes s.cfg s.mem base bs) := by
  unfold State.writeBlock
  split
  case isTrue h => simp [h, eq_comm]
  case isFalse h => simp [h]

theorem State.writeBlock_eq_none (s : State) (base : Nat) (bs : List Byte) :
    s.writeBlock base bs = none ↔ ¬ blockInRange base bs.length := by
  unfold State.writeBlock
  split <;> simp_all

/-- A block read answers exactly when the block is in memory, with the bytes in ascending order. -/
theorem State.readBlock_eq_some (s : State) (base len : Nat) (bs : List Byte) :
    s.readBlock base len = some bs ↔
      blockInRange base len ∧ bs = (List.range len).map fun k => Memory.read s.cfg s.mem (base + k) := by
  unfold State.readBlock
  split
  case isTrue h => simp [h, eq_comm]
  case isFalse h => simp [h]

theorem State.readBlock_eq_none (s : State) (base len : Nat) :
    s.readBlock base len = none ↔ ¬ blockInRange base len := by
  unfold State.readBlock
  split <;> simp_all

theorem State.fetchWord_eq_some (s : State) (a : Nat) (w : Word) :
    s.fetchWord a = some w ↔ a + 1 < Config.memSize ∧
      w = wordOfBytes (Memory.read s.cfg s.mem a) (Memory.read s.cfg s.mem (a + 1)) := by
  unfold State.fetchWord
  split
  case isTrue h => simp [h, eq_comm]
  case isFalse h => simp [h]

theorem State.fetchWord_eq_none (s : State) (a : Nat) : s.fetchWord a = none ↔ Config.memSize ≤ a + 1 := by
  unfold State.fetchWord
  split
  case isTrue h => simp only [reduceCtorEq, false_iff, not_le]; exact h
  case isFalse h => simp only [true_iff]; exact Nat.le_of_not_lt h

theorem wordOfBytes_toNat (hi lo : Byte) : (wordOfBytes hi lo).toNat = hi.toNat * 256 + lo.toNat := by
  rw [wordOfBytes, BitVec.toNat_append, ← Nat.shiftLeft_add_eq_or_of_lt lo.isLt, Nat.shiftLeft_eq]

/-! ## The program counter -/

theorem insnAddr_add_two (a : Word) : (a + 2) - 2 = a := by
  simp

@[simp] theorem State.insnAddr_advance (s : State) : s.advance.insnAddr = s.pc := by
  simp [State.insnAddr, State.advance]

theorem State.skipIf_pc (s : State) (taken : Bool) :
    (s.skipIf taken).pc = if taken = true then s.pc + 2 else s.pc := by
  unfold State.skipIf
  split <;> simp

/-- A skip changes `pc` alone. -/
theorem State.skipIf_eq (s : State) (taken : Bool) : s.skipIf taken = s.setPc (s.skipIf taken).pc := by
  unfold State.skipIf
  split <;> rfl

/-! ## The return stack -/

/-- A push answers exactly when a slot is free, and then stores at `sp` and raises `sp` by one. -/
theorem State.pushReturn_eq_some (s t : State) (a : Word) :
    s.pushReturn a = some t ↔ ∃ h : s.sp.val < Config.stackDepth,
      t = s.setStack (s.stack.set s.sp.val a h) ⟨s.sp.val + 1, Nat.succ_lt_succ h⟩ := by
  unfold State.pushReturn
  split
  case isTrue h => simp [h, eq_comm]
  case isFalse h => simp [h]

theorem State.pushReturn_eq_none (s : State) (a : Word) : s.pushReturn a = none ↔ s.sp = 16 := by
  have := s.sp.isLt
  unfold State.pushReturn
  split
  case isTrue h =>
    simp only [reduceCtorEq, false_iff]
    intro h16
    rw [h16] at h
    exact absurd h (by decide)
  case isFalse h =>
    simp only [true_iff]
    exact Fin.ext (by change s.sp.val = 16; have : ¬ s.sp.val < 16 := h; omega)

/-- A pop answers exactly when the stack holds an entry, and then lowers `sp` by one and keeps every slot. -/
theorem State.popReturn_eq_some (s t : State) (a : Word) :
    s.popReturn = some (a, t) ↔ ∃ h : 0 < s.sp.val,
      a = s.stack[s.sp.val - 1]'(by omega) ∧ t = s.setStack s.stack ⟨s.sp.val - 1, by omega⟩ := by
  unfold State.popReturn
  split
  case isTrue h => simp [h, eq_comm]
  case isFalse h => simp [h]

theorem State.popReturn_eq_none (s : State) : s.popReturn = none ↔ s.sp = 0 := by
  unfold State.popReturn
  split
  case isTrue h =>
    simp only [reduceCtorEq, false_iff]
    intro h0
    rw [h0] at h
    exact absurd h (by decide)
  case isFalse h =>
    simp only [true_iff]
    exact Fin.ext (by change s.sp.val = 0; omega)

/-! ## Values used as hex digits -/

theorem hexDigit_eq_some (b : Byte) (k : Key) : hexDigit b = some k ↔ b.toNat = k.val := by
  have := k.isLt
  unfold hexDigit
  split
  case isTrue h => simp [Fin.ext_iff]
  case isFalse h =>
    simp only [reduceCtorEq, false_iff]
    omega

theorem hexDigit_eq_none (b : Byte) : hexDigit b = none ↔ 16 ≤ b.toNat := by
  unfold hexDigit
  split
  case isTrue h =>
    simp only [reduceCtorEq, false_iff]
    omega
  case isFalse h =>
    simp only [true_iff]
    omega

end Sys2Proof.Machine
end

