-- ==== Sys2Proof/Laws/Exec.lean ====
section
/-! SUPPORT. What each operation that can fault answers: its result under its condition, its fault under the opposite one.
Every other meaning is one equation already. Proofs cite these instead of unfolding a meaning. -/

namespace Sys2Proof.Machine

theorem execCall_of_room (nnn : Addr12) (s : State) (h : s.sp.val < 16) :
    execCall nnn s =
      .next ((s.setStack (s.stack.set s.sp.val s.pc h) ⟨s.sp.val + 1, Nat.succ_lt_succ h⟩).setPc (absoluteAddr nnn)) := by
  have hp := (State.pushReturn_eq_some s _ s.pc).mpr ⟨h, rfl⟩
  simp only [execCall, hp]

theorem execCall_of_full (nnn : Addr12) (s : State) (h : s.sp.val = 16) :
    execCall nnn s = raiseFault .stackOverflow (.call nnn) s := by
  have hp := (State.pushReturn_eq_none s s.pc).mpr (Fin.ext h)
  simp only [execCall, hp]

theorem execRet_of_entry (s : State) (h : 0 < s.sp.val) :
    execRet s =
      .next ((s.setStack s.stack ⟨s.sp.val - 1, by omega⟩).setPc (s.stack[s.sp.val - 1]'(by omega))) := by
  have hp := (State.popReturn_eq_some s _ _).mpr ⟨h, rfl, rfl⟩
  simp only [execRet, hp]

theorem execRet_of_empty (s : State) (h : s.sp.val = 0) : execRet s = raiseFault .stackUnderflow .ret s := by
  have hp := (State.popReturn_eq_none s).mpr (Fin.ext h)
  simp only [execRet, hp]

theorem regsUpTo_length (s : State) (x : RegIdx) : (regsUpTo s x).length = x.val + 1 := by
  simp [regsUpTo]

theorem regsUpTo_getElem? (s : State) (x k : RegIdx) (h : k ≤ x) : (regsUpTo s x)[k.val]? = some (s.reg k) := by
  have hk : k.val < x.val + 1 := Nat.lt_succ_of_le h
  simp [regsUpTo, hk, State.reg]

theorem execBcdStore_of_inRange (x : RegIdx) (s : State) (h : s.index.toNat + 3 ≤ 4096) :
    execBcdStore x s =
      .next (s.setMem (Memory.writeBytes s.cfg s.mem s.index.toNat (bcdDigits (s.reg x)))) := by
  have hp := (State.writeBlock_eq_some s _ (blockBase s) (bcdDigits (s.reg x))).mpr ⟨Or.inr h, rfl⟩
  simp only [execBcdStore, hp]
  rfl

theorem execBcdStore_of_outOfRange (x : RegIdx) (s : State) (h : 4096 < s.index.toNat + 3) :
    execBcdStore x s = raiseFault .outOfBounds (.bcdStore x) s := by
  have hp := (State.writeBlock_eq_none s (blockBase s) (bcdDigits (s.reg x))).mpr
    (by simp only [blockInRange, blockBase, bcdDigits, List.length_cons, List.length_nil, memSize_eq]; omega)
  simp only [execBcdStore, hp]

theorem execRegDump_of_inRange (x : RegIdx) (s : State) (h : s.index.toNat + (x.val + 1) ≤ 4096) :
    execRegDump x s = .next (s.setMem (Memory.writeBytes s.cfg s.mem s.index.toNat (regsUpTo s x))) := by
  have hp := (State.writeBlock_eq_some s _ (blockBase s) (regsUpTo s x)).mpr
    ⟨Or.inr (by rw [regsUpTo_length]; exact h), rfl⟩
  simp only [execRegDump, hp]
  rfl

theorem execRegDump_of_outOfRange (x : RegIdx) (s : State) (h : 4096 < s.index.toNat + (x.val + 1)) :
    execRegDump x s = raiseFault .outOfBounds (.regDump x) s := by
  have hp := (State.writeBlock_eq_none s (blockBase s) (regsUpTo s x)).mpr
    (by simp only [blockInRange, blockBase, regsUpTo_length, memSize_eq]; omega)
  simp only [execRegDump, hp]

/-- The bytes that a block read of `len` bytes at `I` answers (R41, R146). -/
def bytesAtIndex (s : State) (len : Nat) : List Byte :=
  (List.range len).map fun k => Memory.read s.cfg s.mem (s.index.toNat + k)

theorem bytesAtIndex_length (s : State) (len : Nat) : (bytesAtIndex s len).length = len := by
  simp [bytesAtIndex]

theorem bytesAtIndex_getElem? (s : State) (len k : Nat) (h : k < len) :
    (bytesAtIndex s len)[k]? = some (Memory.read s.cfg s.mem (s.index.toNat + k)) := by
  simp [bytesAtIndex, h]

theorem execRegLoad_of_inRange (x : RegIdx) (s : State) (h : s.index.toNat + (x.val + 1) ≤ 4096) :
    execRegLoad x s = .next (s.setRegs (bytesAtIndex s (x.val + 1))) := by
  have hp := (State.readBlock_eq_some s (blockBase s) (x.val + 1) (bytesAtIndex s (x.val + 1))).mpr ⟨Or.inr h, rfl⟩
  simp only [execRegLoad, hp]

theorem execRegLoad_of_outOfRange (x : RegIdx) (s : State) (h : 4096 < s.index.toNat + (x.val + 1)) :
    execRegLoad x s = raiseFault .outOfBounds (.regLoad x) s := by
  have hp := (State.readBlock_eq_none s (blockBase s) (x.val + 1)).mpr
    (by simp only [blockInRange, blockBase, memSize_eq]; omega)
  simp only [execRegLoad, hp]

theorem execDraw_of_inRange (x y : RegIdx) (n : Fin 16) (s : State) (h : blockInRange s.index.toNat n.val) :
    execDraw x y n s =
      .next ((s.setDisplay (Display.xorSprite s.cfg s.display (s.reg x).toNat (s.reg y).toNat
        (bytesAtIndex s n.val)).1).setReg flagReg
          (collisionFlag (Display.xorSprite s.cfg s.display (s.reg x).toNat (s.reg y).toNat
            (bytesAtIndex s n.val)).2)) := by
  have hp := (State.readBlock_eq_some s (blockBase s) n.val (bytesAtIndex s n.val)).mpr ⟨h, rfl⟩
  simp only [execDraw, hp]

theorem execDraw_of_outOfRange (x y : RegIdx) (n : Fin 16) (s : State) (h : ¬ blockInRange s.index.toNat n.val) :
    execDraw x y n s = raiseFault .outOfBounds (.draw x y n) s := by
  have hp := (State.readBlock_eq_none s (blockBase s) n.val).mpr h
  simp only [execDraw, hp]

theorem execSpriteAddress_of_digit (x : RegIdx) (s : State) (d : Key) (h : (s.reg x).toNat = d.val) :
    execSpriteAddress x s = .next (s.setIndex (glyphAddr s.cfg d)) := by
  simp only [execSpriteAddress, (hexDigit_eq_some _ d).mpr h]

theorem execSpriteAddress_of_large (x : RegIdx) (s : State) (h : 16 ≤ (s.reg x).toNat) :
    execSpriteAddress x s = raiseFault .outOfBounds (.spriteAddress x) s := by
  simp only [execSpriteAddress, (hexDigit_eq_none _).mpr h]

theorem execKeyPressed_of_key (x : RegIdx) (s : State) (k : Key) (h : (s.reg x).toNat = k.val) :
    execKeyPressed x s = .next (s.keyDownAsked.skipIf (s.keyDownAnswer k)) := by
  simp only [execKeyPressed, (hexDigit_eq_some _ k).mpr h]

theorem execKeyPressed_of_large (x : RegIdx) (s : State) (h : 16 ≤ (s.reg x).toNat) :
    execKeyPressed x s = raiseFault .outOfBounds (.keyPressed x) s := by
  simp only [execKeyPressed, (hexDigit_eq_none _).mpr h]

theorem execKeyNotPressed_of_key (x : RegIdx) (s : State) (k : Key) (h : (s.reg x).toNat = k.val) :
    execKeyNotPressed x s = .next (s.keyDownAsked.skipIf (!s.keyDownAnswer k)) := by
  simp only [execKeyNotPressed, (hexDigit_eq_some _ k).mpr h]

theorem execKeyNotPressed_of_large (x : RegIdx) (s : State) (h : 16 ≤ (s.reg x).toNat) :
    execKeyNotPressed x s = raiseFault .outOfBounds (.keyNotPressed x) s := by
  simp only [execKeyNotPressed, (hexDigit_eq_none _).mpr h]

theorem execWaitKey_of_key (x : RegIdx) (s : State) (k : Key) (h : s.keyPressAnswer = some k) :
    execWaitKey x s = .next (s.keyPressAsked.setReg x (keyByte k)) := by
  simp only [execWaitKey, h]

theorem execWaitKey_of_none (x : RegIdx) (s : State) (h : s.keyPressAnswer = none) :
    execWaitKey x s = .next ((s.keyPressAsked.setPc s.insnAddr).setRun .awaitingInput) := by
  simp only [execWaitKey, h]

/-- Where the shared write of sub and subn stores the difference (R127, R129). -/
theorem State.subtractInto_of_stored (s : State) (x : RegIdx) (a b : Byte)
    (h : b.toNat < a.toNat ∨ s.cfg.subPolicy = .wrap) :
    s.subtractInto x a b = (s.setReg flagReg (greaterFlag a b)).setReg x (a - b) := by
  simp only [State.subtractInto, if_pos h]

theorem State.subtractInto_of_kept (s : State) (x : RegIdx) (a b : Byte)
    (h : ¬ (b.toNat < a.toNat ∨ s.cfg.subPolicy = .wrap)) :
    s.subtractInto x a b = s.setReg flagReg (greaterFlag a b) := by
  simp only [State.subtractInto, if_neg h]

end Sys2Proof.Machine
end

