-- ==== Sys2Proof/Laws/PerInstr.lean ====
section
/-! SUPPORT. Statements for all instructions, one lemma for each constructor. Family InRow: the word that the encoder makes of
an instruction is selected by the instruction's own row of the opcode map (R75). -/

namespace Sys2Proof.Laws

/-- The encoded word lies in the instruction's row (R75). -/
def InRow.Statement (i : Instr) : Prop := encode i &&& (opcodeRow i).mask = (opcodeRow i).pattern

theorem InRow.halt : InRow.Statement .halt := rfl

theorem InRow.clearDisplay : InRow.Statement .clearDisplay := rfl

theorem InRow.ret : InRow.Statement .ret := rfl

theorem InRow.jump (nnn : Addr12) : InRow.Statement (.jump nnn) := wordNNN_masked 0x1 nnn

theorem InRow.call (nnn : Addr12) : InRow.Statement (.call nnn) := wordNNN_masked 0x2 nnn

theorem InRow.skipEqByte (x : RegIdx) (kk : Byte) : InRow.Statement (.skipEqByte x kk) := wordXKK_masked 0x3 x kk

theorem InRow.skipNeByte (x : RegIdx) (kk : Byte) : InRow.Statement (.skipNeByte x kk) := wordXKK_masked 0x4 x kk

theorem InRow.skipEqReg (x y : RegIdx) : InRow.Statement (.skipEqReg x y) := wordXYF_masked 0x5 x y 0x0

theorem InRow.loadImmediate (x : RegIdx) (kk : Byte) : InRow.Statement (.loadImmediate x kk) := wordXKK_masked 0x6 x kk

theorem InRow.addImmediate (x : RegIdx) (kk : Byte) : InRow.Statement (.addImmediate x kk) := wordXKK_masked 0x7 x kk

theorem InRow.move (x y : RegIdx) : InRow.Statement (.move x y) := wordXYF_masked 0x8 x y 0x0

theorem InRow.or (x y : RegIdx) : InRow.Statement (.or x y) := wordXYF_masked 0x8 x y 0x1

theorem InRow.and (x y : RegIdx) : InRow.Statement (.and x y) := wordXYF_masked 0x8 x y 0x2

theorem InRow.xor (x y : RegIdx) : InRow.Statement (.xor x y) := wordXYF_masked 0x8 x y 0x3

theorem InRow.addReg (x y : RegIdx) : InRow.Statement (.addReg x y) := wordXYF_masked 0x8 x y 0x4

theorem InRow.sub (x y : RegIdx) : InRow.Statement (.sub x y) := wordXYF_masked 0x8 x y 0x5

theorem InRow.shiftRight (x y : RegIdx) : InRow.Statement (.shiftRight x y) := wordXYF_masked 0x8 x y 0x6

theorem InRow.subn (x y : RegIdx) : InRow.Statement (.subn x y) := wordXYF_masked 0x8 x y 0x7

theorem InRow.shiftLeft (x y : RegIdx) : InRow.Statement (.shiftLeft x y) := wordXYF_masked 0x8 x y 0xE

theorem InRow.skipNeReg (x y : RegIdx) : InRow.Statement (.skipNeReg x y) := wordXYF_masked 0x9 x y 0x0

theorem InRow.loadIndex (nnn : Addr12) : InRow.Statement (.loadIndex nnn) := wordNNN_masked 0xA nnn

theorem InRow.jumpWithOffset (nnn : Addr12) : InRow.Statement (.jumpWithOffset nnn) := wordNNN_masked 0xB nnn

theorem InRow.randomAnd (x : RegIdx) (kk : Byte) : InRow.Statement (.randomAnd x kk) := wordXKK_masked 0xC x kk

theorem InRow.draw (x y n : RegIdx) : InRow.Statement (.draw x y n) := wordXYN_masked 0xD x y n

theorem InRow.keyPressed (x : RegIdx) : InRow.Statement (.keyPressed x) := wordXFF_masked 0xE x 0x9E

theorem InRow.keyNotPressed (x : RegIdx) : InRow.Statement (.keyNotPressed x) := wordXFF_masked 0xE x 0xA1

theorem InRow.getDelay (x : RegIdx) : InRow.Statement (.getDelay x) := wordXFF_masked 0xF x 0x07

theorem InRow.waitKey (x : RegIdx) : InRow.Statement (.waitKey x) := wordXFF_masked 0xF x 0x0A

theorem InRow.setDelay (x : RegIdx) : InRow.Statement (.setDelay x) := wordXFF_masked 0xF x 0x15

theorem InRow.setSound (x : RegIdx) : InRow.Statement (.setSound x) := wordXFF_masked 0xF x 0x18

theorem InRow.addIndex (x : RegIdx) : InRow.Statement (.addIndex x) := wordXFF_masked 0xF x 0x1E

theorem InRow.spriteAddress (x : RegIdx) : InRow.Statement (.spriteAddress x) := wordXFF_masked 0xF x 0x29

theorem InRow.bcdStore (x : RegIdx) : InRow.Statement (.bcdStore x) := wordXFF_masked 0xF x 0x33

theorem InRow.regDump (x : RegIdx) : InRow.Statement (.regDump x) := wordXFF_masked 0xF x 0x55

theorem InRow.regLoad (x : RegIdx) : InRow.Statement (.regLoad x) := wordXFF_masked 0xF x 0x65

end Sys2Proof.Laws
end

