-- ==== Sys2Proof/Laws/Step.lean ====
section
/-! SUPPORT. What a step can do, said once: the four ways in which a step has a next state, and the two in which it has
none. -/

namespace Sys2Proof.Machine

@[simp] theorem State.fetched_resume (s : State) : s.resume.fetched = s.fetched := rfl

/-- Every step that has a next state starts in Running or AwaitingInput and is one of: a fetch that faults, a word that does
not decode, the execution of the word's instruction. -/
theorem step_next_cases {s t : State} (h : step s = .next t) :
    s.Active ∧
      ((s.fetched = none ∧ t = s.resume.fetchFault) ∨
        (∃ w e, s.fetched = some w ∧ decodeWord w = .error e ∧ t = s.resume.advance.decodeFault w) ∨
        (∃ w i, s.fetched = some w ∧ decodeWord w = .ok i ∧ exec i s.resume.advance = .next t)) := by
  have hrun : ∀ u : State, u.fetched = s.fetched →
      (match u.fetched with
        | none => Host.Outcome.next s.resume.fetchFault
        | some w =>
          match decodeWord w with
          | .error _ => Host.Outcome.next (s.resume.advance.decodeFault w)
          | .ok i => exec i s.resume.advance) = Host.Outcome.next t →
      (s.fetched = none ∧ t = s.resume.fetchFault) ∨
        (∃ w e, s.fetched = some w ∧ decodeWord w = .error e ∧ t = s.resume.advance.decodeFault w) ∨
        (∃ w i, s.fetched = some w ∧ decodeWord w = .ok i ∧ exec i s.resume.advance = .next t) := by
    intro u hu hstep
    rw [hu] at hstep
    cases hf : s.fetched with
    | none =>
      rw [hf] at hstep
      exact Or.inl ⟨rfl, (Host.Outcome.next.inj hstep).symm⟩
    | some w =>
      rw [hf] at hstep
      cases hd : decodeWord w with
      | error e =>
        simp only [hd] at hstep
        exact Or.inr (Or.inl ⟨w, e, rfl, hd, (Host.Outcome.next.inj hstep).symm⟩)
      | ok i =>
        simp only [hd] at hstep
        exact Or.inr (Or.inr ⟨w, i, rfl, hd, hstep⟩)
  cases hr : s.runState with
  | running =>
    simp only [step, hr] at h
    exact ⟨Or.inl hr, hrun s.resume rfl h⟩
  | awaitingInput =>
    simp only [step, hr] at h
    exact ⟨Or.inr hr, hrun s.resume rfl h⟩
  | halted => simp only [step, hr, stepInHalted, reduceCtorEq] at h
  | faulted => simp only [step, hr, stepInFaulted, reduceCtorEq] at h

theorem State.nextInstr_of_ok {s : State} {w : Word} {i : Instr} (hf : s.fetched = some w) (hd : decodeWord w = .ok i) :
    s.nextInstr = some i := by
  simp only [State.nextInstr, hf, hd]

theorem State.nextInstr_of_error {s : State} {w : Word} {e : Reject} (hf : s.fetched = some w)
    (hd : decodeWord w = .error e) : s.nextInstr = none := by
  simp only [State.nextInstr, hf, hd]

theorem State.nextInstr_of_none {s : State} (hf : s.fetched = none) : s.nextInstr = none := by
  simp only [State.nextInstr, hf]

/-- An instruction to execute is what the fetched word decodes to. -/
theorem State.nextInstr_eq_some {s : State} {i : Instr} :
    s.nextInstr = some i ↔ ∃ w, s.fetched = some w ∧ decodeWord w = .ok i := by
  constructor
  · intro h
    cases hf : s.fetched with
    | none => simp [State.nextInstr_of_none hf] at h
    | some w =>
      cases hd : decodeWord w with
      | error e => simp [State.nextInstr_of_error hf hd] at h
      | ok j =>
        rw [State.nextInstr_of_ok hf hd, Option.some.injEq] at h
        exact ⟨w, rfl, h ▸ hd⟩
  · rintro ⟨w, hf, hd⟩
    exact State.nextInstr_of_ok hf hd

/-- The footprint of nothing: every state keeps itself. -/
theorem Keeps.refl (f : Footprint) (s : State) : Keeps f s s where
  cfg := rfl
  regs := fun _ _ => rfl
  index := fun _ => rfl
  pc := fun _ => rfl
  stack := fun _ => ⟨rfl, rfl⟩
  delay := fun _ => rfl
  sound := fun _ => rfl
  run := fun _ => rfl
  fault := fun _ => rfl
  display := fun _ => rfl
  env := fun _ => rfl
  memory := fun _ _ => rfl

/-- Fault entry changes the run state and the record alone (R185). -/
theorem keeps_enterFault (s : State) (k : FaultKind) (a : Word) (w : Option Word) :
    Keeps faultFootprint s (s.enterFault k a w) where
  cfg := rfl
  regs := fun _ _ => rfl
  index := fun _ => rfl
  pc := fun _ => rfl
  stack := fun _ => ⟨rfl, rfl⟩
  delay := fun _ => rfl
  sound := fun _ => rfl
  run := fun h => absurd (by simp [faultFootprint]) h
  fault := fun h => absurd (by simp [faultFootprint]) h
  display := fun _ => rfl
  env := fun _ => rfl
  memory := fun _ _ => rfl

/-- A raised fault has the state that FaultsWith describes. -/
theorem raiseFault_faultsWith (kind : FaultKind) (i : Instr) (s : State) :
    ∃ t, raiseFault kind i s = .next t ∧ FaultsWith kind i s t :=
  ⟨_, rfl, rfl, rfl, keeps_enterFault s kind s.insnAddr (some (encode i))⟩

end Sys2Proof.Machine
end

