-- ==== Sys2Proof/Tests/Slice0.lean ====
section
/-! SUPPORT. Small tests. Every expected value comes from the spec: the words from the patterns of R75, the results from the
vectors of 95_test_vectors.md, whose identifiers the comments name. Then one witness for the hypotheses of every statement,
clause by clause. -/

namespace Sys2Proof.Tests

open Sys2Proof.Machine

/-! ## Helpers -/

/-- The reset machine with a word where it fetches next. -/
def ready (w : Nat) : State := State.reset.withFetchWord 16 w

/-- Set several registers. -/
def withRegs (s : State) (rs : List (RegIdx × Byte)) : State := rs.foldl (fun u rb => u.setReg rb.1 rb.2) s

/-- Place bytes in memory. -/
def withBytes (s : State) (base : Nat) (bs : List Byte) : State := s.setMem (Memory.writeBytes s.cfg s.mem base bs)

/-- The bytes that stand in memory. -/
def bytesAt (s : State) (base len : Nat) : List (Option Byte) := (List.range len).map fun k => s.memRead (base + k)

/-- The step has a next state, and it meets the condition. -/
def after (s : State) (ok : State → Bool) : Bool :=
  match step s with
  | .next t => ok t
  | .fault _ => false
  | .refused _ => false

/-- The same machine under the other subtraction policy. -/
def wrapping (s : State) : State := { s with cfg := { s.cfg with subPolicy := .wrap } }

/-- The stack pointer set, every slot as it is. -/
def withSp (s : State) (sp : Fin 17) : State := s.setStack s.stack sp

/-- The answers of the environment. -/
def withAnswers (s : State) (rs : List Byte) (ds : List Bool) (ps : List (Option Key)) : State := s.supply rs ds ps

/-- The Faulted machine that part 2.6 of the vectors asks for: record and `pc`, and registers, `I`, memory, stack, display
and environment as before. -/
def faultsAs (s : State) (kind : FaultKind) (faultPc : Word) (word : Option Word) (pc : Word) : Bool :=
  after s fun t => t = { s with runState := .faulted, fault := some ⟨kind, faultPc, word⟩, pc := pc }

/-! ## Well-formedness: each check refuses an ill-formed term -/

theorem test_default_config_wf : Config.default.wf := by decide

/-- R5: `FONT_BASE + 80 <= 0x200`, at its boundary. -/
theorem test_wf_fontFits :
    Config.fontFits { Config.default with fontBase := 0x1B0 } ∧
      ¬ Config.fontFits { Config.default with fontBase := 0x1B1 } := by decide

/-- R5: `DISPLAY_W >= 8`. -/
theorem test_wf_wideEnough :
    Config.wideEnough { Config.default with displayW := 8 } ∧
      ¬ Config.wideEnough { Config.default with displayW := 7 } := by decide

/-- R5: `DISPLAY_H >= 15`. -/
theorem test_wf_tallEnough :
    Config.tallEnough { Config.default with displayH := 15 } ∧
      ¬ Config.tallEnough { Config.default with displayH := 14 } := by decide

/-- R5: `MAX_PROGRAM = MEM_SIZE - ENTRY` is meant as written. -/
theorem test_wf_entryInMemory :
    Config.entryInMemory { Config.default with entry := 0x1000 } ∧
      ¬ Config.entryInMemory { Config.default with entry := 0x1001 } := by decide

/-- R211: 3584 bytes fit and 3585 do not. -/
theorem test_wf_imageFits :
    imageFits Config.default (List.replicate 3584 0) ∧ ¬ imageFits Config.default (List.replicate 3585 0) := by
  simp only [imageFits, List.length_replicate]
  decide

/-! ## Decoding: a word of every operation, from the patterns of R75 -/

theorem test_decode_family0 :
    decodeWord 0b0000000000000000 = .ok .halt ∧ decodeWord 0b0000000011100000 = .ok .clearDisplay ∧
      decodeWord 0b0000000011101110 = .ok .ret := by decide

theorem test_decode_transfers :
    decodeWord 0b0001101010111100 = .ok (.jump 0xABC) ∧ decodeWord 0x2FED = .ok (.call 0xFED) ∧
      decodeWord 0b0011001000110100 = .ok (.skipEqByte 2 0x34) ∧ decodeWord 0x4FA5 = .ok (.skipNeByte 15 0xA5) ∧
      decodeWord 0b0101011110100000 = .ok (.skipEqReg 7 10) ∧ decodeWord 0b1001110000110000 = .ok (.skipNeReg 12 3) ∧
      decodeWord 0b1011000100100011 = .ok (.jumpWithOffset 0x123) := by decide

theorem test_decode_immediates :
    decodeWord 0b0110101000000001 = .ok (.loadImmediate 10 0x01) ∧ decodeWord 0x7B80 = .ok (.addImmediate 11 0x80) ∧
      decodeWord 0b1100111001111110 = .ok (.randomAnd 14 0x7E) := by decide

theorem test_decode_family8 :
    decodeWord 0b1000000100100000 = .ok (.move 1 2) ∧ decodeWord 0x8121 = .ok (.or 1 2) ∧
      decodeWord 0x8342 = .ok (.and 3 4) ∧ decodeWord 0x8343 = .ok (.xor 3 4) ∧ decodeWord 0x85F4 = .ok (.addReg 5 15) ∧
      decodeWord 0x8F55 = .ok (.sub 15 5) ∧ decodeWord 0b1000011010010110 = .ok (.shiftRight 6 9) ∧
      decodeWord 0x8697 = .ok (.subn 6 9) ∧ decodeWord 0b1000011010011110 = .ok (.shiftLeft 6 9) := by decide

theorem test_decode_index_and_draw :
    decodeWord 0b1010001100000001 = .ok (.loadIndex 0x301) ∧ decodeWord 0b1101000100101111 = .ok (.draw 1 2 15) := by decide

theorem test_decode_familyE :
    decodeWord 0b1110010110011110 = .ok (.keyPressed 5) ∧ decodeWord 0b1110010110100001 = .ok (.keyNotPressed 5) := by decide

theorem test_decode_familyF :
    decodeWord 0b1111000100000111 = .ok (.getDelay 1) ∧ decodeWord 0xF20A = .ok (.waitKey 2) ∧
      decodeWord 0xF315 = .ok (.setDelay 3) ∧ decodeWord 0xF418 = .ok (.setSound 4) ∧
      decodeWord 0xF51E = .ok (.addIndex 5) ∧ decodeWord 0xF629 = .ok (.spriteAddress 6) ∧
      decodeWord 0xF733 = .ok (.bcdStore 7) ∧ decodeWord 0xF855 = .ok (.regDump 8) ∧
      decodeWord 0b1111111101100101 = .ok (.regLoad 15) := by decide

/-- R70: the neighbours of the legal words are rejected by the name of their class (F3 to F14). -/
theorem test_decode_rejects :
    decodeWord 0x0001 = .error .family0 ∧ decodeWord 0x00E1 = .error .family0 ∧ decodeWord 0x01EE = .error .family0 ∧
      decodeWord 0x5011 = .error .family5 ∧ decodeWord 0x8008 = .error .family8 ∧ decodeWord 0x800D = .error .family8 ∧
      decodeWord 0x800F = .error .family8 ∧ decodeWord 0x9011 = .error .family9 ∧ decodeWord 0xE09F = .error .familyE ∧
      decodeWord 0xF075 = .error .familyF ∧ (decode [0x12]).toOption = none := by decide

/-- R44, R60: the byte at the lower address is the high byte, and the bytes after the word are left. -/
theorem test_decode_byte_order :
    (decode [0x12, 0x00, 0x60]).toOption = some (.jump 0x200, [0x60]) ∧
      decodeTableWord 16 0x8124 = some (.addReg 1 2) ∧ decodeTableWord 16 0x5011 = none := by decide

/-- R73 (programs P1, P4): the notation of an instruction. -/
theorem test_disassemble :
    disassemble (.loadImmediate 0 0x05) = "load-immediate V0, 0x05" ∧ disassemble (.jump 0x204) = "jump 0x204" ∧
      disassemble (.addReg 1 0) = "add-reg V1, V0" ∧ disassemble .halt = "halt" := by decide

/-! ## One step -/

/-- X1. -/
theorem test_halt :
    after (ready 0x0000) (fun t => t = { ready 0x0000 with runState := .halted, pc := 0x202 }) = true := by decide

/-- F1, F2: no word fetched, `pc` not advanced. -/
theorem test_fetch_fault :
    faultsAs ((ready 0).setPc 0x0FFF) .outOfBounds 0x0FFF none 0x0FFF = true ∧
      faultsAs ((ready 0).setPc 0x1000) .outOfBounds 0x1000 none 0x1000 = true := by decide

/-- X3: the last fetchable address. -/
theorem test_fetch_last :
    after ((withBytes State.reset 0xFFE [0x60, 0x01]).setPc 0xFFE) (fun t => t.reg 0 = 1 ∧ t.pc = 0x1000) = true := by decide

/-- F5, F9: the undefined word is in the record, and `pc` is advanced. -/
theorem test_decode_fault :
    faultsAs (ready 0x0123) .decodeError 0x200 (some 0x0123) 0x202 = true ∧
      faultsAs (ready 0x800F) .decodeError 0x200 (some 0x800F) 0x202 = true := by decide

/-- R186, D28. -/
theorem test_stopped :
    after ((ready 0x6001).setRun .halted) (fun _ => true) = false ∧
      after ((ready 0x6001).setRun .faulted) (fun _ => true) = false := by decide

/-- A sentinel in slot 0, so that a stale slot shows. -/
def slotZero (s : State) (a : Word) (sp : Fin 17) : State := s.setStack (s.stack.set 0 a) sp

/-- J1, F15. -/
theorem test_ret :
    after (slotZero (ready 0x00EE) 0x0206 1) (fun t => t.pc = 0x206 ∧ t.sp = 0 ∧ t.stack[0] = 0x206) = true ∧
      faultsAs (ready 0x00EE) .stackUnderflow 0x200 (some 0x00EE) 0x202 = true := by decide

/-- J2, S4. -/
theorem test_jump :
    after (ready 0x1ABC) (fun t => t.pc = 0xABC) = true ∧ after (ready 0x1200) (fun t => t = ready 0x1200) = true := by decide

/-- J5, F16. -/
theorem test_call :
    after (withSp (ready 0x2300) 15) (fun t => t.stack[15] = 0x202 ∧ t.sp = 16 ∧ t.pc = 0x300) = true ∧
      faultsAs (withSp (ready 0x2300) 16) .stackOverflow 0x200 (some 0x2300) 0x202 = true := by decide

/-- J7, J8, J20. -/
theorem test_skipEqByte :
    after (withRegs (ready 0x332A) [(3, 0x2A)]) (fun t => t.pc = 0x204) = true ∧
      after (withRegs (ready 0x332A) [(3, 0x2B)]) (fun t => t.pc = 0x202) = true ∧
      after (withRegs (ready 0x3F01) [(15, 1)]) (fun t => t.pc = 0x204) = true := by decide

/-- J9, J10. -/
theorem test_skipNeByte :
    after (withRegs (ready 0x432A) [(3, 0x2A)]) (fun t => t.pc = 0x202) = true ∧
      after (withRegs (ready 0x432A) [(3, 0x2B)]) (fun t => t.pc = 0x204) = true := by decide

/-- J11, J12, J13. -/
theorem test_skipEqReg :
    after (withRegs (ready 0x5010) [(0, 20), (1, 20)]) (fun t => t.pc = 0x204) = true ∧
      after (withRegs (ready 0x5010) [(0, 1), (1, 2)]) (fun t => t.pc = 0x202) = true ∧
      after (ready 0x5770) (fun t => t.pc = 0x204) = true := by decide

/-- J14, J15, J16. -/
theorem test_skipNeReg :
    after (withRegs (ready 0x9010) [(0, 1), (1, 2)]) (fun t => t.pc = 0x204) = true ∧
      after (withRegs (ready 0x9010) [(0, 2), (1, 2)]) (fun t => t.pc = 0x202) = true ∧
      after (ready 0x9770) (fun t => t.pc = 0x202) = true := by decide

/-- J17, J18. -/
theorem test_jumpWithOffset :
    after (withRegs (ready 0xB300) [(0, 0x04)]) (fun t => t.pc = 0x304) = true ∧
      after (withRegs (ready 0xBFFF) [(0, 0xFF)]) (fun t => t.pc = 0x10FE) = true := by decide

/-- A1, A2. -/
theorem test_loadImmediate :
    after (ready 0x60FE) (fun t => t.reg 0 = 0xFE) = true ∧ after (ready 0x6F07) (fun t => t.reg 15 = 7) = true := by decide

/-- A3, A4. -/
theorem test_addImmediate :
    after (withRegs (ready 0x70FF) [(0, 5)]) (fun t => t.reg 0 = 4 ∧ t.reg 15 = 0) = true ∧
      after (withRegs (ready 0x7001) [(0, 0xFF)]) (fun t => t.reg 0 = 0 ∧ t.reg 15 = 0) = true := by decide

/-- A5. -/
theorem test_move :
    after (withRegs (ready 0x8010) [(1, 0x37)]) (fun t => t.reg 0 = 0x37 ∧ t.reg 1 = 0x37) = true := by decide

/-- A6. -/
theorem test_or :
    after (withRegs (ready 0x8011) [(0, 0xF0), (1, 0x3C), (15, 1)]) (fun t => t.reg 0 = 0xFC ∧ t.reg 15 = 1) = true := by decide

/-- A7. -/
theorem test_and :
    after (withRegs (ready 0x8012) [(0, 0xF0), (1, 0x3C), (15, 1)]) (fun t => t.reg 0 = 0x30 ∧ t.reg 15 = 1) = true := by decide

/-- A8, A9. -/
theorem test_xor :
    after (withRegs (ready 0x8013) [(0, 0xF0), (1, 0x3C), (15, 1)]) (fun t => t.reg 0 = 0xCC ∧ t.reg 15 = 1) = true ∧
      after (withRegs (ready 0x8003) [(0, 0x5A)]) (fun t => t.reg 0 = 0) = true := by decide

/-- S5 (A10), A12, A13, A14. -/
theorem test_addReg :
    after (withRegs (ready 0x8014) [(0, 5), (1, 10)]) (fun t => t.reg 0 = 15 ∧ t.reg 15 = 0 ∧ t.pc = 0x202) = true ∧
      after (withRegs (ready 0x8014) [(0, 0x80), (1, 0x80)]) (fun t => t.reg 0 = 0 ∧ t.reg 15 = 1) = true ∧
      after (withRegs (ready 0x8014) [(0, 0xFF), (1, 0xFF)]) (fun t => t.reg 0 = 0xFE ∧ t.reg 15 = 1) = true ∧
      after (withRegs (ready 0x8004) [(0, 0x90)]) (fun t => t.reg 0 = 0x20 ∧ t.reg 15 = 1) = true := by decide

/-- A15, A16, A17. -/
theorem test_addReg_flagOperands :
    after (withRegs (ready 0x8F14) [(15, 0xFF), (1, 2)]) (fun t => t.reg 15 = 1) = true ∧
      after (withRegs (ready 0x8FF4) [(15, 0x80)]) (fun t => t.reg 15 = 1) = true ∧
      after (withRegs (ready 0x80F4) [(0, 3), (15, 1)]) (fun t => t.reg 0 = 4 ∧ t.reg 15 = 0) = true := by decide

/-- A18, A19, A20 under both policies. -/
theorem test_sub :
    after (withRegs (ready 0x8015) [(0, 20), (1, 10)]) (fun t => t.reg 0 = 10 ∧ t.reg 15 = 1) = true ∧
      after (withRegs (ready 0x8015) [(0, 10), (1, 20)]) (fun t => t.reg 0 = 10 ∧ t.reg 15 = 0) = true ∧
      after (withRegs (wrapping (ready 0x8015)) [(0, 10), (1, 20)]) (fun t => t.reg 0 = 0xF6 ∧ t.reg 15 = 0) = true ∧
      after (withRegs (wrapping (ready 0x8015)) [(0, 7), (1, 7)]) (fun t => t.reg 0 = 0 ∧ t.reg 15 = 0) = true := by decide

/-- A23, A24. -/
theorem test_sub_flagDestination :
    after (withRegs (ready 0x8F15) [(15, 9), (1, 4)]) (fun t => t.reg 15 = 5) = true ∧
      after (withRegs (ready 0x8F15) [(15, 4), (1, 9)]) (fun t => t.reg 15 = 0) = true ∧
      after (withRegs (wrapping (ready 0x8F15)) [(15, 4), (1, 9)]) (fun t => t.reg 15 = 0xFB) = true := by decide

/-- A25, A28, A29, A30. -/
theorem test_shiftRight :
    after (withRegs (ready 0x8006) [(0, 5)]) (fun t => t.reg 0 = 2 ∧ t.reg 15 = 1) = true ∧
      after (withRegs (ready 0x8006) [(0, 0), (15, 1)]) (fun t => t.reg 0 = 0 ∧ t.reg 15 = 0) = true ∧
      after (withRegs (ready 0x8016) [(0, 4), (1, 0xFF)]) (fun t => t.reg 0 = 2 ∧ t.reg 15 = 0 ∧ t.reg 1 = 0xFF) = true ∧
      after (withRegs (ready 0x8F06) [(15, 7)]) (fun t => t.reg 15 = 3) = true := by decide

/-- A31, A32, A33, A34. -/
theorem test_subn :
    after (withRegs (ready 0x8017) [(0, 10), (1, 20)]) (fun t => t.reg 0 = 10 ∧ t.reg 15 = 1 ∧ t.reg 1 = 20) = true ∧
      after (withRegs (ready 0x8017) [(0, 20), (1, 10)]) (fun t => t.reg 0 = 20 ∧ t.reg 15 = 0) = true ∧
      after (withRegs (wrapping (ready 0x8017)) [(0, 20), (1, 10)]) (fun t => t.reg 0 = 0xF6 ∧ t.reg 15 = 0) = true ∧
      after (withRegs (ready 0x8017) [(0, 0), (1, 0xFF)]) (fun t => t.reg 0 = 0xFF ∧ t.reg 15 = 1) = true := by decide

/-- A35. -/
theorem test_subn_flagDestination :
    after (withRegs (ready 0x8F17) [(15, 4), (1, 9)]) (fun t => t.reg 15 = 5) = true := by decide

/-- A36, A37, A39. -/
theorem test_shiftLeft :
    after (withRegs (ready 0x800E) [(0, 0x0A)]) (fun t => t.reg 0 = 0x14 ∧ t.reg 15 = 0) = true ∧
      after (withRegs (ready 0x800E) [(0, 0xFF)]) (fun t => t.reg 0 = 0xFE ∧ t.reg 15 = 1) = true ∧
      after (withRegs (ready 0x8F0E) [(15, 0x81)]) (fun t => t.reg 15 = 2) = true := by decide

/-- A40: the answer is the environment's, and it is used up. -/
theorem test_randomAnd :
    after (withAnswers (ready 0xC00F) [0xA7, 0x35] [] []) (fun t => t.reg 0 = 7 ∧ t.env.randomBytes = [0x35]) = true := by decide

/-- M1, M2. -/
theorem test_loadIndex :
    after (ready 0xA300) (fun t => t.index = 0x300) = true ∧ after (ready 0xAFFF) (fun t => t.index = 0xFFF) = true := by decide

/-- M4, M5. -/
theorem test_addIndex :
    after (withRegs ((ready 0xF21E).setIndex 0x0FFF) [(2, 1)]) (fun t => t.index = 0x1000 ∧ t.reg 15 = 0) = true ∧
      after (withRegs ((ready 0xF21E).setIndex 0xFFFF) [(2, 1)]) (fun t => t.index = 0) = true := by decide

/-- M6, M7, F23. -/
theorem test_spriteAddress :
    after (withRegs (ready 0xF029) [(0, 3)]) (fun t => t.index = 0x000F) = true ∧
      after (withRegs (ready 0xF029) [(0, 15)]) (fun t => t.index = 0x004B) = true ∧
      faultsAs (withRegs (ready 0xF029) [(0, 16)]) .outOfBounds 0x200 (some 0xF029) 0x202 = true := by decide

/-- M9, M12. -/
theorem test_bcdStore :
    after (withRegs ((ready 0xF033).setIndex 0x300) [(0, 254)])
        (fun t => bytesAt t 0x300 3 = [some 2, some 5, some 4] ∧ t.index = 0x300) = true ∧
      after (withRegs ((ready 0xF033).setIndex 0xFFD) [(0, 255)])
        (fun t => bytesAt t 0xFFD 3 = [some 2, some 5, some 5]) = true := by decide

/-- F17: the fault stores nothing. -/
theorem test_bcdStore_fault :
    faultsAs (withRegs ((ready 0xF033).setIndex 0xFFE) [(0, 255)]) .outOfBounds 0x200 (some 0xF033) 0x202 = true := by decide

/-- M13, M14. -/
theorem test_regDump :
    after (withRegs ((ready 0xF155).setIndex 0x208) [(0, 0x12), (1, 8)])
        (fun t => bytesAt t 0x208 3 = [some 0x12, some 8, some 0] ∧ t.index = 0x208) = true ∧
      after (withRegs ((ready 0xF055).setIndex 0xFFF) [(0, 0xAB)]) (fun t => t.memRead 0xFFF = some 0xAB) = true := by decide

/-- F18. -/
theorem test_regDump_fault :
    faultsAs (withRegs ((ready 0xF155).setIndex 0xFFF) [(0, 1), (1, 2)]) .outOfBounds 0x200 (some 0xF155) 0x202 = true := by
  decide

/-- M16, M18. -/
theorem test_regLoad :
    after (withRegs (withBytes ((ready 0xF265).setIndex 0x300) 0x300 [2, 5, 4]) [(3, 0x77)])
        (fun t => t.reg 0 = 2 ∧ t.reg 1 = 5 ∧ t.reg 2 = 4 ∧ t.reg 3 = 0x77 ∧ t.index = 0x300) = true ∧
      after (ready 0xF465)
        (fun t => t.reg 0 = 0xF0 ∧ t.reg 1 = 0x90 ∧ t.reg 2 = 0x90 ∧ t.reg 3 = 0x90 ∧ t.reg 4 = 0xF0) = true := by decide

/-- F19, F20. -/
theorem test_regLoad_fault :
    faultsAs ((ready 0xFF65).setIndex 0x0FF1) .outOfBounds 0x200 (some 0xFF65) 0x202 = true ∧
      faultsAs ((ready 0xF065).setIndex 0x1000) .outOfBounds 0x200 (some 0xF065) 0x202 = true := by decide

/-- K1. -/
theorem test_clearDisplay :
    after ((ready 0x00E0).setDisplay [(0, 0), (5, 7)]) (fun t => t.display = [] ∧ t.pc = 0x202) = true := by decide

/-- K5: every pixel wraps on its own. K3: a cell that goes off sets the flag. -/
theorem test_draw :
    after (withRegs (withBytes ((ready 0xD012).setIndex 0x300) 0x300 [0x81, 0xFF]) [(0, 255), (1, 255)])
        (fun t => t.display = [(0, 0), (0, 1), (0, 2), (0, 3), (0, 4), (0, 5), (0, 6), (0, 63), (31, 6), (31, 63)] ∧
          t.reg 15 = 0) = true ∧
      after ((withBytes ((ready 0xD011).setIndex 0x301) 0x301 [0x60]).setDisplay [(0, 0), (0, 1)])
        (fun t => t.display = [(0, 0), (0, 2)] ∧ t.reg 15 = 1) = true := by decide

/-- K6, K7, F21: `VF` as a coordinate, no rows, and a sprite past the end of memory. -/
theorem test_draw_edges :
    after (withRegs (withBytes ((ready 0xDF01).setIndex 0x300) 0x300 [0x80]) [(15, 1)])
        (fun t => t.display = [(0, 1)] ∧ t.reg 15 = 0) = true ∧
      after (withRegs ((ready 0xD000).setIndex 0x1000) [(15, 1)]) (fun t => t.display = [] ∧ t.reg 15 = 0) = true ∧
      faultsAs ((ready 0xD001).setIndex 0x1000) .outOfBounds 0x200 (some 0xD001) 0x202 = true := by decide

/-- K9, K10, F24: the fault asks the keypad nothing. -/
theorem test_keyPressed :
    after (withAnswers (withRegs (ready 0xE09E) [(0, 5)]) [] [true] []) (fun t => t.pc = 0x204) = true ∧
      after (withAnswers (withRegs (ready 0xE09E) [(0, 5)]) [] [false] []) (fun t => t.pc = 0x202) = true ∧
      faultsAs (withAnswers (withRegs (ready 0xE09E) [(0, 16)]) [] [true] []) .outOfBounds 0x200 (some 0xE09E) 0x202 = true :=
  by decide

/-- K11, K12, F25. -/
theorem test_keyNotPressed :
    after (withAnswers (withRegs (ready 0xE0A1) [(0, 5)]) [] [true] []) (fun t => t.pc = 0x202) = true ∧
      after (withAnswers (withRegs (ready 0xE0A1) [(0, 5)]) [] [false] []) (fun t => t.pc = 0x204) = true ∧
      faultsAs (withAnswers (withRegs (ready 0xE0A1) [(0, 255)]) [] [true] []) .outOfBounds 0x200 (some 0xE0A1) 0x202 = true :=
  by decide

/-- K13. -/
theorem test_getDelay :
    after ((ready 0xF007).setDelay 3) (fun t => t.reg 0 = 3 ∧ t.dt = 3) = true := by decide

/-- K14, K15. -/
theorem test_waitKey :
    after (withAnswers (ready 0xF30A) [] [] [none])
        (fun t => t.pc = 0x200 ∧ t.runState = .awaitingInput ∧ t.reg 3 = 0) = true ∧
      after (withAnswers ((ready 0xF30A).setRun .awaitingInput) [] [] [some 7])
        (fun t => t.reg 3 = 7 ∧ t.pc = 0x202 ∧ t.runState = .running) = true := by decide

/-- K16. -/
theorem test_setDelay :
    after (withRegs (ready 0xF015) [(0, 0x3C)]) (fun t => t.dt = 0x3C ∧ t.st = 0) = true := by decide

/-- K17. -/
theorem test_setSound :
    after (withRegs (ready 0xF018) [(0, 2)]) (fun t => t.st = 2 ∧ t.dt = 0 ∧ t.soundActive) = true := by decide

/-- K18, K19, K20: the ticks, in every run state. -/
theorem test_ticks :
    ((ready 0).setDelay 2).tickDelay.tickDelay.tickDelay.dt = 0 ∧ ((ready 0).setSound 1).tickSound.st = 0 ∧
      ((ready 0).setSound 1).tickSound.soundActive = false ∧
      (((ready 0).setRun .halted).setDelay 5).tickDelay.dt = 4 := by decide

/-- Log entry 9: with nothing loaded, the first step from reset executes the halt of the zero bytes at `ENTRY` (R36, R65). -/
theorem test_reset_step : after State.reset (fun t => t.runState = .halted ∧ t.pc = 0x202) = true := by decide

/-! ## Witnesses: states and operands that meet the hypotheses of each statement, clause by clause -/

theorem witness_FieldsAreTheStatedBits : (0x8014 : Word) = wordOfBytes 0x80 0x14 := by decide

theorem witness_EncodeInvertsDecode : decodeWord 0x8126 = .ok (.shiftRight 1 2) := by decide

theorem witness_OpcodeMapMatchesDecoder :
    decodeWord 0xFF65 = .ok (.regLoad 15) ∧ decodeWord 0xFF66 = .error .familyF ∧ opcodeRow (.regLoad 15) ∈ opcodeTable := by
  decide

/-- Addresses 0xFFF and 0x1000, on either side of the bound. -/
theorem witness_MemReadAfterMemWrite : (0xFFF ≤ 0xFFF) ∧ (0xFFF < 0x1000) := by decide

/-- A block of three bytes at the end of memory, `k = 1`. -/
theorem witness_StoredWordIsFetchedNext :
    State.reset.writeBlock 0xFFD [1, 2, 3] = some (withBytes State.reset 0xFFD [1, 2, 3]) ∧ 1 + 1 < [1, 2, (3 : Byte)].length := by
  decide

/-- The last fetchable address. -/
def lastWord : State := (withBytes State.reset 0xFFE [0x60, 0x01]).setPc 0xFFE

theorem witness_StepRunsDecodedInstruction :
    lastWord.Active ∧ lastWord.memRead lastWord.pc.toNat = some 0x60 ∧
      lastWord.memRead (lastWord.pc.toNat + 1) = some 0x01 ∧
      decodeWord (wordOfBytes 0x60 0x01) = .ok (.loadImmediate 0 1) := by decide

theorem witness_FetchFaultsOnlyPastMemory :
    (State.reset.setPc 0xFFF).Active ∧ 0xFFF ≤ (State.reset.setPc 0xFFF).pc.toNat ∧
      lastWord.Active ∧ lastWord.pc.toNat < 0xFFF := by decide

theorem witness_UndefinedWordRaisesDecodeError :
    (ready 0x5011).Active ∧ (ready 0x5011).fault = none ∧ (ready 0x5011).fetched = some 0x5011 ∧
      decodeWord 0x5011 = .error .family5 ∧
      (ready 0x00EE).Active ∧ (ready 0x00EE).fault = none ∧ (ready 0x00EE).fetched = some 0x00EE ∧
      decodeWord 0x00EE = .ok .ret ∧ after (ready 0x00EE) (fun t => t.fault.isSome) = true := by decide

theorem witness_StackFaultsHaveOneCauseEach :
    (withSp (ready 0x2300) 16).Active ∧ (withSp (ready 0x2300) 16).fault = none ∧
      (withSp (ready 0x2300) 16).fetched = some 0x2300 ∧
      after (withSp (ready 0x2300) 16) (fun t => (t.fault.map (·.kind)) = some .stackOverflow) = true ∧
      (ready 0x00EE).Active ∧ (ready 0x00EE).fault = none ∧ (ready 0x00EE).fetched = some 0x00EE ∧
      after (ready 0x00EE) (fun t => (t.fault.map (·.kind)) = some .stackUnderflow) = true := by decide

/-- Both sides, and the cause of each operation that can fault, at the boundary. -/
theorem witness_OperationsFaultExactlyOnTheirCause :
    (ready 0).runState = .running ∧ (ready 0).fault = none ∧ (∀ kind, ¬ FaultCause .halt (ready 0) kind) ∧
      FaultCause (.call 0x300) (withSp (ready 0) 16) .stackOverflow ∧ FaultCause .ret (ready 0) .stackUnderflow ∧
      FaultCause (.draw 0 0 15) ((ready 0).setIndex 0xFF2) .outOfBounds ∧
      FaultCause (.bcdStore 0) ((ready 0).setIndex 0xFFE) .outOfBounds ∧
      FaultCause (.regDump 1) ((ready 0).setIndex 0xFFF) .outOfBounds ∧
      FaultCause (.regLoad 15) ((ready 0).setIndex 0xFF1) .outOfBounds ∧
      FaultCause (.spriteAddress 0) (withRegs (ready 0) [(0, 16)]) .outOfBounds ∧
      FaultCause (.keyPressed 0) (withRegs (ready 0) [(0, 16)]) .outOfBounds ∧
      FaultCause (.keyNotPressed 0) (withRegs (ready 0) [(0, 16)]) .outOfBounds := by
  refine ⟨rfl, rfl, fun _ h => h, ?_⟩
  simp only [FaultCause]
  decide

/-- A fault of the fetch, and one after it. -/
theorem witness_FaultEntryIsPrecise :
    (State.reset.setPc 0xFFF).Active ∧ (State.reset.setPc 0xFFF).fetched = none ∧
      after (State.reset.setPc 0xFFF) (fun t => t.runState = .faulted) = true ∧
      (ready 0x5011).Active ∧ (ready 0x5011).fetched = some 0x5011 ∧
      after (ready 0x5011) (fun t => t.runState = .faulted) = true := by decide

theorem witness_StoppedMachineHasNoStep :
    ((ready 0).setRun .halted).runState = .halted ∧ ((ready 0).setRun .faulted).runState = .faulted ∧
      after (ready 0) (fun _ => true) = true := by decide

theorem witness_WaitingStepIsOrdinary : ((ready 0xF30A).setRun .awaitingInput).runState = .awaitingInput := by decide

/-- A step into each of the four run states. -/
theorem witness_RunStateAfterAStep :
    (ready 0x0000).Active ∧ (ready 0x0000).fault = none ∧ after (ready 0x0000) (fun t => t.runState = .halted) = true ∧
      (withAnswers (ready 0xF30A) [] [] [none]).Active ∧ (withAnswers (ready 0xF30A) [] [] [none]).fault = none ∧
      after (withAnswers (ready 0xF30A) [] [] [none]) (fun t => t.runState = .awaitingInput) = true ∧
      (ready 0x5011).Active ∧ (ready 0x5011).fault = none ∧ after (ready 0x5011) (fun t => t.runState = .faulted) = true ∧
      after (ready 0x1200) (fun t => t.runState = .running) = true := by decide

/-- `x = 14`, the last register that is not `VF`; the minuend greater, equal and less, under both policies. -/
theorem witness_SubtractionsUnderBothPolicies :
    (14 : RegIdx) ≠ flagReg ∧
      ((withRegs (ready 0) [(14, 8), (1, 7)]).reg 1).toNat < ((withRegs (ready 0) [(14, 8), (1, 7)]).reg 14).toNat ∧
      ((withRegs (ready 0) [(14, 7), (1, 7)]).reg 14).toNat ≤ ((withRegs (ready 0) [(14, 7), (1, 7)]).reg 1).toNat ∧
      ((withRegs (ready 0) [(14, 7), (1, 7)]).reg 1).toNat ≤ ((withRegs (ready 0) [(14, 7), (1, 7)]).reg 14).toNat ∧
      ((withRegs (ready 0) [(14, 7), (1, 8)]).reg 14).toNat < ((withRegs (ready 0) [(14, 7), (1, 8)]).reg 1).toNat ∧
      (withRegs (ready 0) [(14, 7), (1, 7)]).cfg.subPolicy = .keep ∧
      (wrapping (withRegs (ready 0) [(14, 7), (1, 7)])).cfg.subPolicy = .wrap := by decide

theorem witness_ShiftsByOneBit : (14 : RegIdx) ≠ flagReg := by decide

theorem witness_AddRegSumAndCarry : (14 : RegIdx) ≠ flagReg := by decide

/-- The largest answer. -/
theorem witness_RandomAndMasksTheAnswer : (withAnswers (ready 0xC00F) [0xFF] [] []).randomAnswer = 0xFF := by decide

theorem witness_CallPushesAdvancedPc : (withSp (ready 0) 15).sp.val < 16 := by decide

theorem witness_ReturnPopsNewestAddress :
    (withSp (ready 0) 16).sp.val = (15 : Fin 16).val + 1 ∧ (withSp (ready 0) 1).sp.val = (0 : Fin 16).val + 1 := by decide

/-- The source's program S3, with one free slot left. -/
def callAndReturn : State := withSp (withBytes State.reset 0x200 [0x22, 0x04, 0x00, 0x00, 0x00, 0xEE]) 15

theorem witness_CallThenReturnRestoresPc :
    callAndReturn.Active ∧ callAndReturn.sp.val < 16 ∧ callAndReturn.nextInstr = some (.call 0x204) ∧
      callAndReturn.fetchWord (0x204 : Addr12).toNat = some 0x00EE := by decide

/-- The digits 15 and 16. -/
theorem witness_SpriteAddressOfADigit :
    (withRegs (ready 0) [(0, 15)]).cfg.wf ∧ ((withRegs (ready 0) [(0, 15)]).reg 0).toNat ≤ 15 ∧
      (withRegs (ready 0) [(0, 16)]).cfg.wf ∧ 15 < ((withRegs (ready 0) [(0, 16)]).reg 0).toNat := by decide

/-- The highest legal base and the one above it. -/
theorem witness_BcdStoreWritesThreeDigits :
    ((ready 0).setIndex 0xFFD).index.toNat + 2 ≤ 0xFFF ∧ 0xFFF < ((ready 0).setIndex 0xFFE).index.toNat + 2 := by decide

theorem witness_RegDumpStoresRegisters :
    ((ready 0).setIndex 0xFF0).index.toNat + (15 : RegIdx).val ≤ 0xFFF ∧
      0xFFF < ((ready 0).setIndex 0xFF1).index.toNat + (15 : RegIdx).val ∧ (15 : RegIdx) ≤ 15 := by decide

theorem witness_RegLoadLoadsRegisters :
    ((ready 0).setIndex 0xFFF).index.toNat + (0 : RegIdx).val ≤ 0xFFF ∧
      0xFFF < ((ready 0).setIndex 0xFFF).index.toNat + (1 : RegIdx).val ∧ (0 : RegIdx) < 1 ∧ (0 : RegIdx) ≤ 0 := by decide

theorem witness_RegDumpThenRegLoadKeepsRegisters :
    ((ready 0).setIndex 0xFF0).index.toNat + (15 : RegIdx).val ≤ 0xFFF := by decide

/-- A sprite of one row with bit 7 set covers the cell at (`Vy`, `Vx`), which is on. -/
def litSprite : State := ((withBytes State.reset 0x300 [0x80]).setIndex 0x300).setDisplay [(0, 0)]

/-- 15 rows at the highest legal base and at the one above it, no rows anywhere, and a covered cell that is on. -/
theorem witness_DrawInvertsTheSpritesCells :
    ((ready 0).setIndex 0xFF1).cfg.wf ∧
      ((15 : Fin 16).val = 0 ∨ ((ready 0).setIndex 0xFF1).index.toNat + (15 : Fin 16).val - 1 ≤ 0xFFF) ∧
      1 ≤ (15 : Fin 16).val ∧ 0xFFF < ((ready 0).setIndex 0xFF2).index.toNat + (15 : Fin 16).val - 1 ∧
      ((0 : Fin 16).val = 0 ∨ ((ready 0).setIndex 0xFFFF).index.toNat + (0 : Fin 16).val - 1 ≤ 0xFFF) ∧
      (∃ p, SpriteCovers litSprite 0 0 1 p ∧ Display.isOn litSprite.display p = true) ∧
      (¬ ∃ p, SpriteCovers litSprite 0 0 0 p ∧ Display.isOn litSprite.display p = true) ∧
      ¬ SpriteCovers litSprite 0 0 0 (0, 0) := by
  refine ⟨by decide, by decide, by decide, by decide, by decide,
    ⟨(0, 0), ⟨0, 0, 0x80, by decide⟩, by decide⟩, ?_, ?_⟩
  · rintro ⟨p, ⟨r, j, row, hr, hrest⟩, hon⟩
    exact Nat.not_lt_zero r hr
  · rintro ⟨r, j, row, hr, hrest⟩
    exact Nat.not_lt_zero r hr

theorem witness_DrawTwiceRestoresTheDisplay :
    litSprite.cfg.wf ∧ Display.wf litSprite.cfg litSprite.display ∧ (0 : RegIdx) ≠ flagReg ∧ (14 : RegIdx) ≠ flagReg ∧
      ((1 : Fin 16).val = 0 ∨ litSprite.index.toNat + (1 : Fin 16).val - 1 ≤ 0xFFF) := by decide

/-- The key 15 with both answers, and the value 16. -/
theorem witness_KeySkips :
    ((withRegs (ready 0) [(0, 15)]).reg 0).toNat = (15 : Key).val ∧
      (withAnswers (withRegs (ready 0) [(0, 15)]) [] [true] []).keyDownAnswer 15 = true ∧
      (withAnswers (withRegs (ready 0) [(0, 15)]) [] [false] []).keyDownAnswer 15 = false ∧
      15 < ((withRegs (ready 0) [(0, 16)]).reg 0).toNat := by decide

theorem witness_WaitKeyPollsOnce :
    (withAnswers (ready 0) [] [] [some 15]).keyPressAnswer = some 15 ∧
      (withAnswers (ready 0) [] [] [none]).keyPressAnswer = none := by decide

/-- jump is none of the instructions that the clauses name. -/
theorem witness_StorageIsWrittenByItsInstructionsOnly :
    after (ready 0x1200) (fun _ => true) = true ∧ (ready 0x1200).nextInstr = some (.jump 0x200) := by decide

theorem witness_RegistersAreWrittenByTheirInstructionsOnly :
    exec (.jump 0x200) (ready 0) = .next ((ready 0).setPc 0x200) ∧ ¬ MayWriteReg (.jump 0x200) 15 := ⟨rfl, fun h => h⟩

theorem witness_OneQuestionAStep :
    after (withAnswers (ready 0xC00F) [0xA7] [] []) (fun t => t.env.asked = 1) = true ∧
      after (ready 0x1200) (fun t => t.env.asked = 0) = true ∧ (ready 0x1200).nextInstr = some (.jump 0x200) := by decide

/-- A step that is no set-delay, and a tick. -/
theorem witness_DelayTimerOnlyFalls :
    Event.apply .step (ready 0x6001) = .next (((ready 0x6001).setPc 0x202).setReg 0 1) ∧
      (ready 0x6001).nextInstr = some (.loadImmediate 0 1) ∧
      Event.apply (.host .tickDelay) ((ready 0x6001).setDelay 1) = .next (((ready 0x6001).setDelay 1).setDelay 0) ∧
      (∀ image, Event.host .tickDelay ≠ .host (.boot image)) := by
  refine ⟨rfl, by decide, rfl, ?_⟩
  intro image h
  cases h

/-- The longest image that fits, and one byte more. -/
theorem witness_ProgramLoadPlacesTheImage :
    State.reset.cfg.wf ∧ State.reset.cfg.entry.toNat + (List.replicate 3584 (0 : Byte)).length ≤ 4096 ∧
      4096 < State.reset.cfg.entry.toNat + (List.replicate 3585 (0 : Byte)).length := by
  simp only [List.length_replicate]
  decide

/-- Legal parameters at all their bounds at once. -/
theorem witness_ResetMeetsTheInvariant :
    Config.wf { Config.default with entry := 0x1000, fontBase := 0x1B0, displayW := 8, displayH := 15 } := by decide

/-- A state inside a subroutine, with one return address, that a run reaches. -/
def inSubroutine : State := slotZero (ready 0x00EE) 0x0206 1

theorem witness_StepKeepsTheInvariant : inSubroutine.Inv ∧ after inSubroutine (fun _ => true) = true where
  left :=
    { cfgWf := by decide
      memWf := by decide
      displayWf := by decide
      record := by decide
      returns := by decide
      pcBound := by decide
      waiting := fun h => absurd h (by decide) }
  right := by decide

theorem witness_HostMovesKeepTheInvariant :
    inSubroutine.Inv ∧ HostMove.apply .tickDelay inSubroutine = .next inSubroutine :=
  ⟨witness_StepKeepsTheInvariant.1, rfl⟩

/-- A machine that waits at its wait-key instruction. -/
def waitingForKey : State := (ready 0xF30A).setRun .awaitingInput

theorem witness_WaitingMachineNeverFaults : waitingForKey.Inv ∧ waitingForKey.runState = .awaitingInput where
  left :=
    { cfgWf := by decide
      memWf := by decide
      displayWf := by decide
      record := by decide
      returns := by decide
      pcBound := by decide
      waiting := fun _ => ⟨3, by decide⟩ }
  right := by decide

/-- A tick, then a return. -/
theorem witness_EveryScheduleKeepsTheInvariant :
    inSubroutine.Inv ∧
      runEvents [.host .tickDelay, .step] inSubroutine = .next ((slotZero inSubroutine 0x0206 0).setPc 0x0206) :=
  ⟨witness_StepKeepsTheInvariant.1, rfl⟩

/-- A Faulted machine with other parameters: the longest image that fits and one byte more, a glyph byte and a byte of neither
image nor glyphs, each at the boundary. -/
def faultedElsewhere : State :=
  { (ready 0x5011).setRun .faulted with cfg := { Config.default with entry := 0x300, fontBase := 0x1B0 } }

theorem witness_BootRebuildsTheMachine :
    faultedElsewhere.cfg.wf ∧ faultedElsewhere.runState = .faulted ∧
      faultedElsewhere.cfg.entry.toNat + (List.replicate 3328 (0 : Byte)).length ≤ 4096 ∧
      4096 < faultedElsewhere.cfg.entry.toNat + (List.replicate 3329 (0 : Byte)).length ∧
      ¬ (faultedElsewhere.cfg.entry.toNat ≤ 0x1FF ∧ 0x1FF < faultedElsewhere.cfg.entry.toNat + [(1 : Byte)].length) ∧
      0x1FF = faultedElsewhere.cfg.fontBase.toNat + 5 * (15 : Fin 16).val + (4 : Fin 5).val ∧
      ¬ (faultedElsewhere.cfg.entry.toNat ≤ 0x301 ∧ 0x301 < faultedElsewhere.cfg.entry.toNat + [(1 : Byte)].length) ∧
      ¬ (faultedElsewhere.cfg.fontBase.toNat ≤ 0x301 ∧ 0x301 < faultedElsewhere.cfg.fontBase.toNat + 80) := by
  simp only [List.length_replicate]
  decide

/-- R210: a reset brings a Halted machine back to the state after reset. -/
theorem test_boot :
    (match HostMove.apply (.boot []) (withRegs (((ready 0x1200).setRun .halted).setIndex 5) [(3, 7)]) with
      | .next t => decide (t = State.reset)
      | .fault _ => false
      | .refused _ => false) = true := by decide


end Sys2Proof.Tests
end

section
/-! PROOFS. The frame of a composed update: one rule for each update of Machine/Ops.lean, which adds to a footprint what the
update changes. -/

namespace Sys2Proof.Machine

/-- `Keeps`, and memory kept as a list too where the footprint stores nothing: `Keeps` compares memories by what `MemRead`
gives, which does not tell whether the canonical form of the list is kept (log entry 23). -/
structure Frame (f : Footprint) (s t : State) : Prop extends Keeps f s t where
  mem : f.storeLen = 0 → t.mem = s.mem

/-- One more register in a footprint. -/
def Footprint.addReg (f : Footprint) (r : RegIdx) : Footprint := { f with regs := r :: f.regs }

/-- The registers `V0` to `V(n - 1)` in a footprint. -/
def Footprint.addRegsBelow (f : Footprint) (n : Nat) : Footprint :=
  { f with regs := f.regs ++ (List.finRange 16).filter fun r => r.val < n }

/-- One more piece of state in a footprint. -/
def Footprint.addPart (f : Footprint) (p : Part) : Footprint := { f with parts := p :: f.parts }

section Rules

variable {f g : Footprint} {s t : State}

theorem Frame.refl (s : State) : Frame {} s s := ⟨Keeps.refl {} s, fun _ => rfl⟩

/-- A frame holds with a larger footprint too. -/
theorem Frame.mono (h : Frame f s t) (hregs : f.regs ⊆ g.regs) (hparts : f.parts ⊆ g.parts)
    (hstore : ∀ a, f.storeBase ≤ a → a < f.storeBase + f.storeLen → g.storeBase ≤ a ∧ a < g.storeBase + g.storeLen) :
    Frame g s t where
  cfg := h.cfg
  regs := fun r hr => h.regs r fun hm => hr (hregs hm)
  index := fun hp => h.index fun hm => hp (hparts hm)
  pc := fun hp => h.pc fun hm => hp (hparts hm)
  stack := fun hp => h.stack fun hm => hp (hparts hm)
  delay := fun hp => h.delay fun hm => hp (hparts hm)
  sound := fun hp => h.sound fun hm => hp (hparts hm)
  run := fun hp => h.run fun hm => hp (hparts hm)
  fault := fun hp => h.fault fun hm => hp (hparts hm)
  display := fun hp => h.display fun hm => hp (hparts hm)
  env := fun hp => h.env fun hm => hp (hparts hm)
  memory := fun a ha => h.memory a fun hin => ha (hstore a hin.1 hin.2)
  mem := fun hlen => h.mem (by
    by_contra hne
    have := hstore f.storeBase (Nat.le_refl _) (by omega)
    omega)

theorem Frame.addPart (h : Frame f s t) (p : Part) : Frame (f.addPart p) s t :=
  h.mono (List.Subset.refl _) (List.subset_cons_self _ _) fun _ ha hb => ⟨ha, hb⟩

theorem Frame.addReg (h : Frame f s t) (r : RegIdx) : Frame (f.addReg r) s t :=
  h.mono (List.subset_cons_self _ _) (List.Subset.refl _) fun _ ha hb => ⟨ha, hb⟩

theorem Frame.addRegsBelow (h : Frame f s t) (n : Nat) : Frame (f.addRegsBelow n) s t :=
  h.mono (List.subset_append_left _ _) (List.Subset.refl _) fun _ ha hb => ⟨ha, hb⟩

/-- Any new register file that agrees outside the footprint. -/
theorem Frame.withRegisters (h : Frame f s t) (v : Vector Byte 16) (hv : ∀ q, q ∉ f.regs → v[q] = t.reg q) :
    Frame f s { t with v := v } :=
  { h with regs := fun q hq => (hv q hq).trans (h.regs q hq) }

theorem Frame.setReg (h : Frame f s t) (r : RegIdx) (b : Byte) : Frame (f.addReg r) s (t.setReg r b) := by
  refine (h.addReg r).withRegisters _ fun q hq => State.reg_setReg_ne t r q b ?_
  rintro rfl
  exact hq (List.mem_cons_self ..)

theorem Frame.setRegs (h : Frame f s t) {bs : List Byte} {n : Nat} (hlen : bs.length = n) :
    Frame (f.addRegsBelow n) s (t.setRegs bs) := by
  refine (h.addRegsBelow n).withRegisters _ fun q hq => (State.reg_setRegs t bs q).trans ?_
  have hn : n ≤ q.val := by
    by_contra hlt
    exact hq (List.mem_append_right _ (by simpa using hlt))
  rw [List.getElem?_eq_none (hlen ▸ hn), Option.getD_none]

theorem Frame.setIndex (h : Frame f s t) (a : Word) : Frame (f.addPart .index) s (t.setIndex a) :=
  { h.addPart .index with index := fun hp => absurd (List.mem_cons_self ..) hp }

theorem Frame.setPc (h : Frame f s t) (a : Word) : Frame (f.addPart .pc) s (t.setPc a) :=
  { h.addPart .pc with pc := fun hp => absurd (List.mem_cons_self ..) hp }

theorem Frame.skipIf (h : Frame f s t) (taken : Bool) : Frame (f.addPart .pc) s (t.skipIf taken) :=
  State.skipIf_eq t taken ▸ h.setPc _

theorem Frame.setStack (h : Frame f s t) (k : Vector Word 16) (p : Fin 17) :
    Frame (f.addPart .stack) s (t.setStack k p) :=
  { h.addPart .stack with stack := fun hp => absurd (List.mem_cons_self ..) hp }

theorem Frame.setDelay (h : Frame f s t) (b : Byte) : Frame (f.addPart .delay) s (t.setDelay b) :=
  { h.addPart .delay with delay := fun hp => absurd (List.mem_cons_self ..) hp }

theorem Frame.setSound (h : Frame f s t) (b : Byte) : Frame (f.addPart .sound) s (t.setSound b) :=
  { h.addPart .sound with sound := fun hp => absurd (List.mem_cons_self ..) hp }

theorem Frame.setRun (h : Frame f s t) (r : RunState) : Frame (f.addPart .run) s (t.setRun r) :=
  { h.addPart .run with run := fun hp => absurd (List.mem_cons_self ..) hp }

theorem Frame.setDisplay (h : Frame f s t) (fb : Display) : Frame (f.addPart .display) s (t.setDisplay fb) :=
  { h.addPart .display with display := fun hp => absurd (List.mem_cons_self ..) hp }

theorem Frame.setEnv (h : Frame f s t) (e : Environment) : Frame (f.addPart .env) s (t.setEnv e) :=
  { h.addPart .env with env := fun hp => absurd (List.mem_cons_self ..) hp }

/-- A block store on its own, inside memory. -/
theorem Frame.storeBytes (s : State) {base n : Nat} {bs : List Byte} (hlen : bs.length = n) (hin : base + n ≤ 4096) :
    Frame { storeBase := base, storeLen := n } s (s.setMem (Memory.writeBytes s.cfg s.mem base bs)) :=
  { Frame.refl s with
    memory := fun a ha => by
      rw [State.memRead_writeBytes _ _ _ _ (Or.inr (hlen ▸ hin)), hlen, if_neg ha]
    mem := fun h0 => by
      rw [List.length_eq_zero_iff.mp (hlen.trans h0)]
      rfl }

end Rules

end Sys2Proof.Machine
end

section
/-! PROOFS. What an instruction may change: the footprint of each, the one theorem that `exec` stays inside it unless it raises a
fault, and what follows for the registers and for `I`. -/

namespace Sys2Proof.Machine

/-- What a completed instruction may change: its registers, `I`, `pc` where it transfers control, and so on. Where the answer
of a collaborator or a policy decides what is written, every candidate is in. -/
def footprint (i : Instr) (s : State) : Footprint :=
  match i with
  | .halt => { parts := [.run] }
  | .clearDisplay => { parts := [.display] }
  | .ret | .call _ => { parts := [.pc, .stack] }
  | .jump _ | .jumpWithOffset _ | .skipEqByte _ _ | .skipNeByte _ _ | .skipEqReg _ _ | .skipNeReg _ _ => { parts := [.pc] }
  | .loadImmediate x _ | .addImmediate x _ | .move x _ | .or x _ | .and x _ | .xor x _ | .getDelay x => { regs := [x] }
  | .addReg x _ => { regs := [flagReg, x] }
  | .sub x _ | .subn x _ | .shiftRight x _ | .shiftLeft x _ => { regs := [x, flagReg] }
  | .loadIndex _ | .addIndex _ | .spriteAddress _ => { parts := [.index] }
  | .randomAnd x _ => { regs := [x], parts := [.env] }
  | .draw _ _ _ => { regs := [flagReg], parts := [.display] }
  | .keyPressed _ | .keyNotPressed _ => { parts := [.pc, .env] }
  | .waitKey x => { regs := [x], parts := [.run, .pc, .env] }
  | .setDelay _ => { parts := [.delay] }
  | .setSound _ => { parts := [.sound] }
  | .bcdStore _ => { storeBase := s.index.toNat, storeLen := 3 }
  | .regDump x => { storeBase := s.index.toNat, storeLen := x.val + 1 }
  | .regLoad x => { regs := (List.finRange 16).filter fun r => r.val < x.val + 1 }

theorem subtractInto_frame (s : State) (x : RegIdx) (a b : Byte) :
    Frame { regs := [x, flagReg] } s (s.subtractInto x a b) := by
  have hflag := (Frame.refl s).setReg flagReg (greaterFlag a b)
  by_cases h : b.toNat < a.toNat ∨ s.cfg.subPolicy = .wrap
  · rw [State.subtractInto_of_stored s x a b h]
    exact hflag.setReg x (a - b)
  · rw [State.subtractInto_of_kept s x a b h]
    exact hflag.addReg x

/-- `exec` answers a next state for every instruction and every state: a raised fault, or a state inside the instruction's
footprint. -/
theorem exec_answers (i : Instr) (s : State) : ∃ t, exec i s = .next t ∧
    ((∃ kind, t = s.enterFault kind s.insnAddr (some (encode i))) ∨ Frame (footprint i s) s t) := by
  have start := Frame.refl s
  cases i with
  | halt => exact ⟨_, rfl, .inr (start.setRun _)⟩
  | clearDisplay => exact ⟨_, rfl, .inr (start.setDisplay _)⟩
  | ret =>
    by_cases hsp : 0 < s.sp.val
    · exact ⟨_, execRet_of_entry s hsp, .inr ((start.setStack _ _).setPc _)⟩
    · exact ⟨_, execRet_of_empty s (by omega), .inl ⟨_, rfl⟩⟩
  | jump nnn | jumpWithOffset nnn => exact ⟨_, rfl, .inr (start.setPc _)⟩
  | call nnn =>
    by_cases hsp : s.sp.val < 16
    · exact ⟨_, execCall_of_room nnn s hsp, .inr ((start.setStack _ _).setPc _)⟩
    · exact ⟨_, execCall_of_full nnn s (by omega), .inl ⟨_, rfl⟩⟩
  | skipEqByte x kk | skipNeByte x kk | skipEqReg x y | skipNeReg x y => exact ⟨_, rfl, .inr (start.skipIf _)⟩
  | loadImmediate x kk | addImmediate x kk | move x y | or x y | and x y | xor x y | getDelay x =>
    exact ⟨_, rfl, .inr (start.setReg x _)⟩
  | addReg x y => exact ⟨_, rfl, .inr ((start.setReg x _).setReg flagReg _)⟩
  | sub x y | subn x y => exact ⟨_, rfl, .inr (subtractInto_frame s x _ _)⟩
  | shiftRight x y | shiftLeft x y => exact ⟨_, rfl, .inr ((start.setReg flagReg _).setReg x _)⟩
  | loadIndex nnn | addIndex x => exact ⟨_, rfl, .inr (start.setIndex _)⟩
  | randomAnd x kk => exact ⟨_, rfl, .inr ((start.setEnv _).setReg x _)⟩
  | draw x y n =>
    by_cases hin : blockInRange s.index.toNat n.val
    · exact ⟨_, execDraw_of_inRange x y n s hin, .inr ((start.setDisplay _).setReg flagReg _)⟩
    · exact ⟨_, execDraw_of_outOfRange x y n s hin, .inl ⟨_, rfl⟩⟩
  | keyPressed x =>
    by_cases hk : (s.reg x).toNat < 16
    · exact ⟨_, execKeyPressed_of_key x s ⟨_, hk⟩ rfl, .inr ((start.setEnv _).skipIf _)⟩
    · exact ⟨_, execKeyPressed_of_large x s (by omega), .inl ⟨_, rfl⟩⟩
  | keyNotPressed x =>
    by_cases hk : (s.reg x).toNat < 16
    · exact ⟨_, execKeyNotPressed_of_key x s ⟨_, hk⟩ rfl, .inr ((start.setEnv _).skipIf _)⟩
    · exact ⟨_, execKeyNotPressed_of_large x s (by omega), .inl ⟨_, rfl⟩⟩
  | waitKey x =>
    cases hk : s.keyPressAnswer with
    | some k => exact ⟨_, execWaitKey_of_key x s k hk, .inr ((((start.setEnv _).addPart .pc).addPart .run).setReg x _)⟩
    | none => exact ⟨_, execWaitKey_of_none x s hk, .inr ((((start.setEnv _).setPc _).setRun _).addReg x)⟩
  | setDelay x => exact ⟨_, rfl, .inr (start.setDelay _)⟩
  | setSound x => exact ⟨_, rfl, .inr (start.setSound _)⟩
  | spriteAddress x =>
    by_cases hd : (s.reg x).toNat < 16
    · exact ⟨_, execSpriteAddress_of_digit x s ⟨_, hd⟩ rfl, .inr (start.setIndex _)⟩
    · exact ⟨_, execSpriteAddress_of_large x s (by omega), .inl ⟨_, rfl⟩⟩
  | bcdStore x =>
    by_cases hin : s.index.toNat + 3 ≤ 4096
    · exact ⟨_, execBcdStore_of_inRange x s hin, .inr (Frame.storeBytes s rfl hin)⟩
    · exact ⟨_, execBcdStore_of_outOfRange x s (by omega), .inl ⟨_, rfl⟩⟩
  | regDump x =>
    by_cases hin : s.index.toNat + (x.val + 1) ≤ 4096
    · exact ⟨_, execRegDump_of_inRange x s hin, .inr (Frame.storeBytes s (regsUpTo_length s x) hin)⟩
    · exact ⟨_, execRegDump_of_outOfRange x s (by omega), .inl ⟨_, rfl⟩⟩
  | regLoad x =>
    by_cases hin : s.index.toNat + (x.val + 1) ≤ 4096
    · exact ⟨_, execRegLoad_of_inRange x s hin, .inr (start.setRegs (bytesAtIndex_length s (x.val + 1)))⟩
    · exact ⟨_, execRegLoad_of_outOfRange x s (by omega), .inl ⟨_, rfl⟩⟩

/-- What a next state of `exec` can be. -/
theorem exec_next_cases {i : Instr} {s t : State} (h : exec i s = .next t) :
    (∃ kind, t = s.enterFault kind s.insnAddr (some (encode i))) ∨ Frame (footprint i s) s t := by
  obtain ⟨u, hu, hcases⟩ := exec_answers i s
  obtain rfl : u = t := Host.Outcome.next.inj (hu.symm.trans h)
  exact hcases

theorem exec_next_unique {i : Instr} {s t u : State} (h : exec i s = .next t) (hu : exec i s = .next u) : t = u :=
  Host.Outcome.next.inj (h.symm.trans hu)

/-- The registers of the footprint are those that R21 and R22 let the instruction write. -/
theorem mem_footprint_regs {i : Instr} {s : State} {r : RegIdx} : r ∈ (footprint i s).regs ↔ MayWriteReg i r := by
  cases i with
  | regLoad x =>
    change r ∈ (List.finRange 16).filter (fun q => q.val < x.val + 1) ↔ r.val ≤ x.val
    simp
  | addReg x y => simp [footprint, MayWriteReg, or_comm]
  | _ => simp [footprint, MayWriteReg]

theorem exec_reg_unchanged {i : Instr} {s t : State} (h : exec i s = .next t) {r : RegIdx} (hr : ¬ MayWriteReg i r) :
    t.reg r = s.reg r := by
  rcases exec_next_cases h with ⟨kind, rfl⟩ | hf
  · rfl
  · exact hf.regs r (mt mem_footprint_regs.mp hr)

/-- R23: three instructions write `I`, and no memory access does (R146). -/
theorem exec_index_unchanged {i : Instr} {s t : State} (h : exec i s = .next t) (hload : ∀ nnn, i ≠ .loadIndex nnn)
    (hadd : ∀ x, i ≠ .addIndex x) (hsprite : ∀ x, i ≠ .spriteAddress x) : t.index = s.index := by
  rcases exec_next_cases h with ⟨kind, rfl⟩ | hf
  · rfl
  refine hf.index ?_
  cases i with
  | loadIndex nnn => exact absurd rfl (hload nnn)
  | addIndex x => exact absurd rfl (hadd x)
  | spriteAddress x => exact absurd rfl (hsprite x)
  | _ => simp [footprint]

end Sys2Proof.Machine
end

section
/-! PROOFS. The run state after an execution, and the instruction that a step executes. -/

namespace Sys2Proof.Machine

/-- What `exec` does to the run state and the record: only halt and an unanswered wait-key set it, a raised fault sets both, and
everything else keeps both (R29, R87, R165, R185). -/
theorem exec_run_cases {i : Instr} {s t : State} (h : exec i s = .next t) :
    (i = .halt ∧ t = s.setRun .halted) ∨
      (∃ x, i = .waitKey x ∧
        ((s.keyPressAnswer = none ∧ t = (s.keyPressAsked.setPc s.insnAddr).setRun .awaitingInput) ∨
          (s.keyPressAnswer ≠ none ∧ t.runState = s.runState ∧ t.fault = s.fault))) ∨
      (i ≠ .halt ∧ (∀ x, i ≠ .waitKey x) ∧
        ((∃ kind, t = s.enterFault kind s.insnAddr (some (encode i))) ∨
          (t.runState = s.runState ∧ t.fault = s.fault))) := by
  cases i with
  | halt => exact .inl ⟨rfl, exec_next_unique h rfl⟩
  | waitKey x =>
    refine .inr (.inl ⟨x, rfl, ?_⟩)
    cases hk : s.keyPressAnswer with
    | none => exact .inl ⟨rfl, exec_next_unique h (execWaitKey_of_none x s hk)⟩
    | some k =>
      obtain rfl := exec_next_unique h (execWaitKey_of_key x s k hk)
      exact .inr ⟨nofun, rfl, rfl⟩
  | _ =>
    refine .inr (.inr ⟨nofun, nofun, (exec_next_cases h).imp_right fun hf => ⟨hf.run ?_, hf.fault ?_⟩⟩)
    · simp [footprint]
    · simp [footprint]

/-- What is fetched next depends on the parameters, memory and `pc` alone (R81, R83). -/
theorem State.nextInstr_congr {s t : State} (hcfg : t.cfg = s.cfg) (hmem : t.mem = s.mem) (hpc : t.pc = s.pc) :
    t.nextInstr = s.nextInstr := by
  simp only [State.nextInstr, State.fetched, State.fetchWord, hcfg, hmem, hpc]

/-- An instruction to execute was fetched from below 0xFFF (R81). -/
theorem State.pc_lt_of_nextInstr {s : State} {i : Instr} (h : s.nextInstr = some i) : s.pc.toNat + 1 < 4096 := by
  obtain ⟨w, hw, -⟩ := State.nextInstr_eq_some.mp h
  exact ((State.fetchWord_eq_some s _ w).mp hw).1

/-- An active machine with an instruction to execute executes it in the resumed and advanced state (R80). -/
theorem step_eq_exec {s : State} {i : Instr} (hact : s.Active) (hi : s.nextInstr = some i) :
    step s = exec i s.resume.advance := by
  obtain ⟨w, hf, hd⟩ := State.nextInstr_eq_some.mp hi
  have hf' : s.resume.fetched = some w := hf
  rcases hact with hr | hr
  · simp only [step, hr, hf', hd]
  · simp only [step, hr, hf', hd]

end Sys2Proof.Machine
end

section
/-! PROOFS. The invariant outside execution: the stages of a step before it, fault entry, reset and the host's moves. -/

namespace Sys2Proof.Machine

section InvRules

variable {s : State}

/-- The invariant does not speak of the timers and of the answers to come. -/
theorem State.Inv.setDelay (hs : s.Inv) (b : Byte) : (s.setDelay b).Inv :=
  ⟨hs.cfgWf, hs.memWf, hs.displayWf, hs.record, hs.returns, hs.pcBound, hs.waiting⟩

theorem State.Inv.setSound (hs : s.Inv) (b : Byte) : (s.setSound b).Inv :=
  ⟨hs.cfgWf, hs.memWf, hs.displayWf, hs.record, hs.returns, hs.pcBound, hs.waiting⟩

theorem State.Inv.setEnv (hs : s.Inv) (e : Environment) : (s.setEnv e).Inv :=
  ⟨hs.cfgWf, hs.memWf, hs.displayWf, hs.record, hs.returns, hs.pcBound, hs.waiting⟩

/-- Fault entry keeps the invariant: the record comes with the run state (R185). -/
theorem State.Inv.enterFault (hs : s.Inv) (kind : FaultKind) (a : Word) (w : Option Word) :
    (s.enterFault kind a w).Inv :=
  ⟨hs.cfgWf, hs.memWf, hs.displayWf, by simp, hs.returns, hs.pcBound, nofun⟩

/-- An active machine that meets the invariant has no record (R30). -/
theorem State.Inv.fault_eq_none (hs : s.Inv) (hact : s.Active) : s.fault = none := by
  rw [← Option.not_isSome_iff_eq_none, hs.record]
  rcases hact with hr | hr
  · simp [hr]
  · simp [hr]

theorem State.Inv.resume (hs : s.Inv) (hact : s.Active) : s.resume.Inv where
  cfgWf := hs.cfgWf
  memWf := hs.memWf
  displayWf := hs.displayWf
  record := by simp [State.resume, hs.fault_eq_none hact]
  returns := hs.returns
  pcBound := hs.pcBound
  waiting := nofun

/-- The machine after reset meets the invariant for all legal parameters (R35, R37). -/
theorem State.inv_resetWith {cfg : Config} (hcfg : cfg.wf) : (State.resetWith cfg).Inv where
  cfgWf := hcfg
  memWf := Memory.wf_nil cfg
  displayWf := ⟨List.Pairwise.nil, nofun⟩
  record := by simp [State.resetWith]
  returns := fun j hj => absurd hj (Nat.not_lt_zero _)
  pcBound := by
    obtain ⟨-, -, -, hentry⟩ := hcfg
    exact Nat.le_trans hentry (by decide)
  waiting := nofun

/-- A program that is loaded into a machine that does not wait keeps the invariant (R211). -/
theorem State.Inv.loadProgram {t : State} {image : List Byte} (hs : s.Inv) (hrun : s.runState = .running)
    (h : s.loadProgram image = .next t) : t.Inv := by
  unfold State.loadProgram at h
  split at h
  case isFalse => exact absurd h nofun
  case isTrue hfits =>
    obtain rfl := Host.Outcome.next.inj h
    obtain ⟨-, -, -, hentry⟩ := hs.cfgWf
    have hin : blockInRange s.cfg.entry.toNat image.length := by
      simp only [imageFits, Config.maxProgram, Config.entryInMemory] at hfits hentry
      exact Or.inr (by omega)
    exact ⟨hs.cfgWf, Memory.wf_writeBytes _ _ _ _ hin hs.memWf, hs.displayWf, hs.record, hs.returns, hs.pcBound,
      fun hw => absurd (hrun.symm.trans hw) nofun⟩

/-- Every host move keeps the invariant (R89, R191, R210, R211). -/
theorem HostMove.apply_inv {m : HostMove} {t : State} (hs : s.Inv) (h : m.apply s = .next t) : t.Inv := by
  cases m with
  | boot image => exact ((State.inv_resetWith hs.cfgWf).setEnv s.env).loadProgram rfl h
  | tickDelay =>
    obtain rfl := Host.Outcome.next.inj h
    unfold State.tickDelay
    split
    · exact hs.setDelay _
    · exact hs
  | tickSound =>
    obtain rfl := Host.Outcome.next.inj h
    unfold State.tickSound
    split
    · exact hs.setSound _
    · exact hs
  | answers rs ds ps =>
    obtain rfl := Host.Outcome.next.inj h
    exact hs.setEnv _

end InvRules

end Sys2Proof.Machine
end

section
/-! PROOFS. The invariant through execution, one lemma for each clause, then through a step and through a run. -/

namespace Sys2Proof.Machine

/-- A machine in the midst of a step that meets the invariant: it is Running, and `i` is the instruction at `insn_addr`, with
`pc` already advanced (R80, R82). -/
structure State.Executing (i : Instr) (s : State) : Prop where
  inv : s.Inv
  running : s.runState = .running
  atInsnAddr : (s.setPc s.insnAddr).nextInstr = some i

section Executing

variable {i : Instr} {s t : State}

theorem State.Executing.insnAddr_lt (hs : s.Executing i) : s.insnAddr.toNat + 1 < 4096 :=
  State.pc_lt_of_nextInstr hs.atInsnAddr

theorem State.Executing.pc_le (hs : s.Executing i) : s.pc.toNat ≤ 0x1000 := by
  have hlt := hs.insnAddr_lt
  unfold State.insnAddr at hlt
  bv_omega

/-- The advance keeps the invariant of an active machine once the fetch has succeeded (R82). -/
theorem State.Inv.advanced {w : Word} (hs : s.Inv) (hact : s.Active) (hf : s.fetched = some w) :
    s.resume.advance.Inv := by
  have hres := hs.resume hact
  have hlt := ((State.fetchWord_eq_some s _ w).mp hf).1
  refine ⟨hres.cfgWf, hres.memWf, hres.displayWf, hres.record, hres.returns, ?_, nofun⟩
  change (s.pc + 2).toNat ≤ 0x10FE
  rw [memSize_eq] at hlt
  bv_omega

theorem State.Inv.executing (hs : s.Inv) (hact : s.Active) (hi : s.nextInstr = some i) :
    s.resume.advance.Executing i := by
  obtain ⟨w, hf, -⟩ := State.nextInstr_eq_some.mp hi
  refine ⟨hs.advanced hact hf, rfl, ?_⟩
  rw [← hi]
  exact State.nextInstr_congr rfl rfl (State.insnAddr_advance s.resume)

theorem exec_memWf (hs : s.Inv) (h : exec i s = .next t) : Memory.wf s.cfg t.mem := by
  rcases exec_next_cases h with ⟨kind, rfl⟩ | hf
  · exact hs.memWf
  by_cases hlen : (footprint i s).storeLen = 0
  · rw [hf.mem hlen]
    exact hs.memWf
  cases i with
  | bcdStore x =>
    by_cases hin : s.index.toNat + 3 ≤ 4096
    · obtain rfl := exec_next_unique h (execBcdStore_of_inRange x s hin)
      exact Memory.wf_writeBytes _ _ _ _ (Or.inr hin) hs.memWf
    · obtain rfl := exec_next_unique h (execBcdStore_of_outOfRange x s (by omega))
      exact hs.memWf
  | regDump x =>
    by_cases hin : s.index.toNat + (x.val + 1) ≤ 4096
    · obtain rfl := exec_next_unique h (execRegDump_of_inRange x s hin)
      exact Memory.wf_writeBytes _ _ _ _ (Or.inr (by rw [regsUpTo_length]; exact hin)) hs.memWf
    · obtain rfl := exec_next_unique h (execRegDump_of_outOfRange x s (by omega))
      exact hs.memWf
  | _ => exact absurd rfl hlen

theorem exec_displayWf (hs : s.Inv) (h : exec i s = .next t) : Display.wf s.cfg t.display := by
  rcases exec_next_cases h with ⟨kind, rfl⟩ | hf
  · exact hs.displayWf
  by_cases hpart : Part.display ∈ (footprint i s).parts
  case neg =>
    rw [hf.display hpart]
    exact hs.displayWf
  cases i with
  | clearDisplay =>
    obtain rfl := exec_next_unique h rfl
    exact ⟨List.Pairwise.nil, nofun⟩
  | draw x y n =>
    by_cases hin : blockInRange s.index.toNat n.val
    · obtain rfl := exec_next_unique h (execDraw_of_inRange x y n s hin)
      obtain ⟨-, hwide, htall, -⟩ := hs.cfgWf
      exact Display.wf_xorPixels _ _ _ hs.displayWf
        (spritePixels_inGrid _ _ _ _ (Nat.lt_of_lt_of_le (by decide) hwide) (Nat.lt_of_lt_of_le (by decide) htall))
    · obtain rfl := exec_next_unique h (execDraw_of_outOfRange x y n s hin)
      exact hs.displayWf
  | _ => simp [footprint] at hpart

/-- The entry that a call makes valid is the advanced `pc`, at most 0x1000 because a fetch reached it (R37, R102). -/
theorem exec_returns (hs : s.Executing i) (h : exec i s = .next t) :
    ∀ j : Fin 16, j.val < t.sp.val → t.stack[j].toNat ≤ 0x1000 := by
  have hret := hs.inv.returns
  rcases exec_next_cases h with ⟨kind, rfl⟩ | hf
  · exact hret
  by_cases hpart : Part.stack ∈ (footprint i s).parts
  case neg =>
    obtain ⟨hstack, hsp⟩ := hf.stack hpart
    rw [hstack, hsp]
    exact hret
  cases i with
  | call nnn =>
    by_cases hsp : s.sp.val < 16
    · obtain rfl := exec_next_unique h (execCall_of_room nnn s hsp)
      intro j hj
      change j.val < s.sp.val + 1 at hj
      change ((s.stack.set s.sp.val s.pc hsp)[j.val]).toNat ≤ 0x1000
      rw [Vector.getElem_set]
      split
      · exact hs.pc_le
      · exact hret j (by omega)
    · obtain rfl := exec_next_unique h (execCall_of_full nnn s (by omega))
      exact hret
  | ret =>
    by_cases hsp : 0 < s.sp.val
    · obtain rfl := exec_next_unique h (execRet_of_entry s hsp)
      intro j hj
      change j.val < s.sp.val - 1 at hj
      exact hret j (by omega)
    · obtain rfl := exec_next_unique h (execRet_of_empty s (by omega))
      exact hret
  | _ => simp [footprint] at hpart

theorem State.skipIf_pc_cases (s : State) (taken : Bool) :
    (s.skipIf taken).pc = s.pc ∨ (s.skipIf taken).pc = s.pc + 2 := by
  rw [State.skipIf_pc]
  exact (ite_eq_or_eq ..).symm

/-- Where control can be after an instruction: where the advance left it, one instruction further, back at the instruction, at
an absolute address, at one plus `V0`, or at a valid stack entry (R82, R100 to R109, R165). -/
theorem exec_pc_cases (h : exec i s = .next t) :
    t.pc = s.pc ∨ t.pc = s.pc + 2 ∨ t.pc = s.insnAddr ∨ (∃ nnn, t.pc = absoluteAddr nnn) ∨
      (∃ nnn, t.pc = absoluteAddr nnn + wideReg s 0) ∨ ∃ j : Fin 16, j.val < s.sp.val ∧ t.pc = s.stack[j] := by
  rcases exec_next_cases h with ⟨kind, rfl⟩ | hf
  · exact .inl rfl
  by_cases hpart : Part.pc ∈ (footprint i s).parts
  case neg => exact .inl (hf.pc hpart)
  cases i with
  | ret =>
    by_cases hsp : 0 < s.sp.val
    · obtain rfl := exec_next_unique h (execRet_of_entry s hsp)
      exact .inr (.inr (.inr (.inr (.inr ⟨⟨s.sp.val - 1, by omega⟩, Nat.sub_lt hsp Nat.one_pos, rfl⟩))))
    · obtain rfl := exec_next_unique h (execRet_of_empty s (by omega))
      exact .inl rfl
  | jump nnn =>
    obtain rfl := exec_next_unique h rfl
    exact .inr (.inr (.inr (.inl ⟨nnn, rfl⟩)))
  | call nnn =>
    by_cases hsp : s.sp.val < 16
    · obtain rfl := exec_next_unique h (execCall_of_room nnn s hsp)
      exact .inr (.inr (.inr (.inl ⟨nnn, rfl⟩)))
    · obtain rfl := exec_next_unique h (execCall_of_full nnn s (by omega))
      exact .inl rfl
  | skipEqByte x kk | skipNeByte x kk | skipEqReg x y | skipNeReg x y =>
    obtain rfl := exec_next_unique h rfl
    exact (State.skipIf_pc_cases s _).imp_right .inl
  | jumpWithOffset nnn =>
    obtain rfl := exec_next_unique h rfl
    exact .inr (.inr (.inr (.inr (.inl ⟨nnn, rfl⟩))))
  | keyPressed x =>
    by_cases hk : (s.reg x).toNat < 16
    · obtain rfl := exec_next_unique h (execKeyPressed_of_key x s ⟨_, hk⟩ rfl)
      exact (State.skipIf_pc_cases s.keyDownAsked _).imp_right .inl
    · obtain rfl := exec_next_unique h (execKeyPressed_of_large x s (by omega))
      exact .inl rfl
  | keyNotPressed x =>
    by_cases hk : (s.reg x).toNat < 16
    · obtain rfl := exec_next_unique h (execKeyNotPressed_of_key x s ⟨_, hk⟩ rfl)
      exact (State.skipIf_pc_cases s.keyDownAsked _).imp_right .inl
    · obtain rfl := exec_next_unique h (execKeyNotPressed_of_large x s (by omega))
      exact .inl rfl
  | waitKey x =>
    cases hk : s.keyPressAnswer with
    | some k =>
      obtain rfl := exec_next_unique h (execWaitKey_of_key x s k hk)
      exact .inl rfl
    | none =>
      obtain rfl := exec_next_unique h (execWaitKey_of_none x s hk)
      exact .inr (.inr (.inl rfl))
  | _ => simp [footprint] at hpart

theorem absoluteAddr_toNat_le (nnn : Addr12) : (absoluteAddr nnn).toNat ≤ 0xFFF := by
  unfold absoluteAddr
  bv_omega

theorem wideReg_toNat_le (s : State) (r : RegIdx) : (wideReg s r).toNat ≤ 0xFF := by
  unfold wideReg
  bv_omega

/-- The largest `pc` comes from jump-with-offset: 0xFFF + 0xFF (R24). -/
theorem exec_pc_le (hs : s.Executing i) (h : exec i s = .next t) : t.pc.toNat ≤ 0x10FE := by
  have hpc := hs.pc_le
  rcases exec_pc_cases h with ht | ht | ht | ⟨nnn, ht⟩ | ⟨nnn, ht⟩ | ⟨j, hj, ht⟩ <;> rw [ht]
  · omega
  · bv_omega
  · have := hs.insnAddr_lt
    omega
  · have := absoluteAddr_toNat_le nnn
    omega
  · have := absoluteAddr_toNat_le nnn
    have := wideReg_toNat_le s 0
    bv_omega
  · have := hs.inv.returns j hj
    omega

theorem exec_cfg (h : exec i s = .next t) : t.cfg = s.cfg := by
  rcases exec_next_cases h with ⟨kind, rfl⟩ | hf
  · rfl
  · exact hf.cfg

/-- The record is written exactly by the fault that enters Faulted (R30, R185). -/
theorem exec_record (hs : s.Executing i) (h : exec i s = .next t) : t.fault.isSome = true ↔ t.runState = .faulted := by
  have hrecord := hs.inv.record
  rcases exec_run_cases h with
    ⟨-, rfl⟩ | ⟨x, -, ⟨-, rfl⟩ | ⟨-, hrun, hfault⟩⟩ | ⟨-, -, ⟨kind, rfl⟩ | ⟨hrun, hfault⟩⟩
  · simpa [hs.running] using hrecord
  · simpa [hs.running, State.keyPressAsked] using hrecord
  · rw [hfault, hrun, hrecord]
  · simp
  · rw [hfault, hrun, hrecord]

/-- An instruction that leaves the machine waiting is a wait-key, and `pc` is back at it (R86, R165). -/
theorem exec_waiting (hs : s.Executing i) (h : exec i s = .next t) (hwait : t.runState = .awaitingInput) :
    ∃ x, t.nextInstr = some (.waitKey x) := by
  have hrun := hs.running
  have hat := hs.atInsnAddr
  rcases exec_run_cases h with
    ⟨-, rfl⟩ | ⟨x, rfl, ⟨-, rfl⟩ | ⟨-, hr, -⟩⟩ | ⟨-, -, ⟨kind, rfl⟩ | ⟨hr, -⟩⟩
  · exact absurd hwait nofun
  · exact ⟨x, (State.nextInstr_congr rfl rfl rfl).trans hat⟩
  · exact absurd (hwait.symm.trans (hr.trans hrun)) nofun
  · exact absurd hwait nofun
  · exact absurd (hwait.symm.trans (hr.trans hrun)) nofun

/-- Execution keeps the invariant, clause by clause. -/
theorem exec_keeps_inv (hs : s.Executing i) (h : exec i s = .next t) : t.Inv where
  cfgWf := exec_cfg h ▸ hs.inv.cfgWf
  memWf := exec_cfg h ▸ exec_memWf hs.inv h
  displayWf := exec_cfg h ▸ exec_displayWf hs.inv h
  record := exec_record hs h
  returns := exec_returns hs h
  pcBound := exec_pc_le hs h
  waiting := exec_waiting hs h

end Executing

theorem step_keeps_inv {s t : State} (hs : s.Inv) (h : step s = .next t) : t.Inv := by
  obtain ⟨hact, hend⟩ := step_next_cases h
  rcases hend with ⟨-, rfl⟩ | ⟨w, e, hf, -, rfl⟩ | ⟨w, i, hf, hd, hx⟩
  · exact (hs.resume hact).enterFault _ _ _
  · exact (hs.advanced hact hf).enterFault _ _ _
  · exact exec_keeps_inv (hs.executing hact (State.nextInstr_of_ok hf hd)) hx

theorem Event.apply_inv {e : Event} {s t : State} (hs : s.Inv) (h : e.apply s = .next t) : t.Inv := by
  cases e with
  | step => exact step_keeps_inv hs h
  | host m => exact HostMove.apply_inv hs h

/-- A run keeps the invariant under every schedule (R88, R89). -/
theorem runEvents_inv {es : List Event} {s t : State} (hs : s.Inv) (h : runEvents es s = .next t) : t.Inv := by
  induction es generalizing s with
  | nil =>
    obtain rfl := Host.Outcome.next.inj h
    exact hs
  | cons e rest ih =>
    rw [runEvents] at h
    cases he : e.apply s with
    | next u =>
      rw [he] at h
      exact ih (Event.apply_inv hs he) h
    | fault r =>
      rw [he] at h
      exact absurd h nofun
    | refused r =>
      rw [he] at h
      exact absurd h nofun

end Sys2Proof.Machine
end

section
/-! PROOFS. The statements about the state (10_state.md). -/

namespace Sys2Proof.Proofs

open Sys2Proof.Machine

/-- Settles O56: fetch and decode faults enter Faulted from a state that meets the invariant, and execution keeps it. -/
theorem stepKeepsTheInvariant : Obligations.StepKeepsTheInvariant := fun _ _ => step_keeps_inv

/-- Settles O59: every event keeps the invariant, so every schedule does. -/
theorem everyScheduleKeepsTheInvariant : Obligations.EveryScheduleKeepsTheInvariant :=
  fun _ _ _ => runEvents_inv

/-- Settles O17, by the three ends of a step and what `exec` does to the run state. -/
theorem runStateAfterAStep : Obligations.RunStateAfterAStep := by
  intro s t _ hnone h
  have hnone' : s.resume.advance.fault = none := hnone
  have hrun : s.resume.advance.runState = .running := rfl
  have hkey : s.resume.advance.keyPressAnswer = s.keyPressAnswer := rfl
  rcases (step_next_cases h).2 with ⟨hf, rfl⟩ | ⟨w, e, hf, hd, rfl⟩ | ⟨w, i, hf, hd, hx⟩
  · simp [State.nextInstr_of_none hf, State.fetchFault]
  · simp [State.nextInstr_of_error hf hd, State.decodeFault]
  · rw [State.nextInstr_of_ok hf hd]
    rcases exec_run_cases hx with ⟨rfl, rfl⟩ | ⟨x, rfl, ⟨hk, rfl⟩ | ⟨hk, hr, hn⟩⟩ | ⟨hh, hw, ⟨kind, rfl⟩ | ⟨hr, hn⟩⟩
    · simp [hnone']
    · rw [hkey] at hk
      simp [hk, State.keyPressAsked, hnone']
    · rw [hkey] at hk
      simp [hr, hn, hrun, hnone', hk]
    · simp [hh, hw]
    · simp [hr, hn, hrun, hnone', hh, hw]

/-- Settles O50: the frame of `exec`, read off for the registers and for `I`. -/
theorem registersAreWrittenByTheirInstructionsOnly : Obligations.RegistersAreWrittenByTheirInstructionsOnly :=
  fun _ _ _ h => ⟨fun _ hr => exec_reg_unchanged h hr, exec_index_unchanged h⟩

/-- Settles O58: a waiting machine executes its wait-key again, which answers a key or goes on waiting. -/
theorem waitingMachineNeverFaults : Obligations.WaitingMachineNeverFaults := by
  intro s hs hwait
  obtain ⟨x, hx⟩ := hs.waiting hwait
  rw [step_eq_exec (Or.inr hwait) hx]
  cases hk : s.resume.advance.keyPressAnswer with
  | none => exact ⟨_, execWaitKey_of_none x _ hk, by simp⟩
  | some k => exact ⟨_, execWaitKey_of_key x _ k hk, by simp [State.keyPressAsked, State.resume, State.advance]⟩

/-- Settles O53: nothing is listed in memory after reset, so that each byte reads as the font or as 0. -/
theorem resetState : Obligations.ResetState := by
  have hreset : ∀ a, a ≤ 0xFFF → State.reset.memRead a = some (Memory.unlisted Config.default a) := fun a ha =>
    (State.memRead_eq_some _ _ _).mpr ⟨Nat.lt_succ_of_le ha, rfl⟩
  have hbase : Config.default.fontBase.toNat = 0 := rfl
  refine ⟨?_, rfl, rfl, rfl, ?_, rfl, rfl, rfl, rfl, fun _ => rfl, ?_, ?_⟩
  · intro r
    simp [State.reset, State.resetWith, State.reg]
  · intro j
    simp [State.reset, State.resetWith]
  · intro d k
    have hglyph := Memory.unlisted_glyph Config.default d k
    rw [hbase, Nat.zero_add] at hglyph
    rw [hreset _ (by omega), hglyph]
    rfl
  · intro a hlow hhigh
    rw [hreset a hhigh, Memory.unlisted_outside _ _ (by omega)]

/-- Settles O55. -/
theorem resetMeetsTheInvariant : Obligations.ResetMeetsTheInvariant :=
  ⟨State.inv_resetWith (by decide), fun _ hcfg => State.inv_resetWith hcfg⟩

end Sys2Proof.Proofs
end

section
/-! PROOFS. The frame of a whole step: resume, fetch, advance and decode change the run state, `pc` and the record alone, and
execution what the footprint of its instruction holds. -/

namespace Sys2Proof.Machine

/-- The pieces of state that the stages of a step around execution may change: resume, advance and fault entry (R80, R82,
R185). -/
def stageParts : List Part := [.run, .pc, .fault]

/-- What a step may change: the stages' pieces of state, and the footprint of the instruction where one is executed. -/
def stepFootprint (s : State) : Footprint :=
  match s.nextInstr with
  | some i => { footprint i s with parts := stageParts ++ (footprint i s).parts }
  | none => { parts := stageParts }

section StepFrame

variable {f : Footprint} {s t u : State} {i : Instr} {p : Part}

/-- Two updates in a row, each inside the footprint. -/
theorem Frame.trans (h : Frame f s t) (h' : Frame f t u) : Frame f s u where
  cfg := h'.cfg.trans h.cfg
  regs := fun r hr => (h'.regs r hr).trans (h.regs r hr)
  index := fun hp => (h'.index hp).trans (h.index hp)
  pc := fun hp => (h'.pc hp).trans (h.pc hp)
  stack := fun hp => ⟨(h'.stack hp).1.trans (h.stack hp).1, (h'.stack hp).2.trans (h.stack hp).2⟩
  delay := fun hp => (h'.delay hp).trans (h.delay hp)
  sound := fun hp => (h'.sound hp).trans (h.sound hp)
  run := fun hp => (h'.run hp).trans (h.run hp)
  fault := fun hp => (h'.fault hp).trans (h.fault hp)
  display := fun hp => (h'.display hp).trans (h.display hp)
  env := fun hp => (h'.env hp).trans (h.env hp)
  memory := fun a ha => (h'.memory a ha).trans (h.memory a ha)
  mem := fun hlen => (h'.mem hlen).trans (h.mem hlen)

theorem Frame.enterFault (h : Frame f s t) (k : FaultKind) (a : Word) (w : Option Word) :
    Frame ((f.addPart .fault).addPart .run) s (t.enterFault k a w) :=
  { (h.addPart .fault).addPart .run with
    run := fun hp => absurd (List.mem_cons_self ..) hp
    fault := fun hp => absurd (List.mem_cons_of_mem _ (List.mem_cons_self ..)) hp }

/-- A footprint depends on the state by `I` alone, the base of a store (R146). -/
theorem footprint_congr (i : Instr) (hindex : t.index = s.index) : footprint i t = footprint i s := by
  simp only [footprint, hindex]

theorem stepFootprint_of_some (hi : s.nextInstr = some i) :
    stepFootprint s = { footprint i s with parts := stageParts ++ (footprint i s).parts } := by
  simp only [stepFootprint, hi]

theorem stepFootprint_of_none (hi : s.nextInstr = none) : stepFootprint s = { parts := stageParts } := by
  simp only [stepFootprint, hi]

theorem notMem_stepFootprint_parts (hp : p ∉ stageParts)
    (hfoot : ∀ i, s.nextInstr = some i → p ∉ (footprint i s).parts) : p ∉ (stepFootprint s).parts := by
  cases hi : s.nextInstr with
  | none => rwa [stepFootprint_of_none hi]
  | some i =>
    rw [stepFootprint_of_some hi]
    exact List.not_mem_append hp (hfoot i hi)

theorem stepFootprint_storeLen_eq_zero (hfoot : ∀ i, s.nextInstr = some i → (footprint i s).storeLen = 0) :
    (stepFootprint s).storeLen = 0 := by
  cases hi : s.nextInstr with
  | none => rw [stepFootprint_of_none hi]
  | some i => rw [stepFootprint_of_some hi, hfoot i hi]

theorem stageParts_subset_stepFootprint (s : State) : stageParts ⊆ (stepFootprint s).parts := by
  cases hi : s.nextInstr with
  | none =>
    rw [stepFootprint_of_none hi]
    exact List.Subset.refl _
  | some i =>
    rw [stepFootprint_of_some hi]
    exact List.subset_append_left _ _

/-- What the stages around execution do is inside the step's footprint. -/
theorem Frame.of_stages {ps : List Part} (h : Frame { parts := ps } s t) (hps : ps ⊆ stageParts) :
    Frame (stepFootprint s) s t :=
  h.mono (List.nil_subset _) (List.Subset.trans hps (stageParts_subset_stepFootprint s)) fun _ ha hlt =>
    absurd ha (Nat.not_le_of_lt hlt)

/-- What an execution does is inside the footprint of the step that executes the instruction. -/
theorem Frame.of_execution (h : Frame (footprint i t) t u) (hindex : t.index = s.index) (hi : s.nextInstr = some i) :
    Frame (stepFootprint s) t u := by
  rw [stepFootprint_of_some hi, ← footprint_congr i hindex]
  exact h.mono (List.Subset.refl _) (List.subset_append_right _ _) fun _ ha hlt => ⟨ha, hlt⟩

/-- Every step stays inside its footprint. -/
theorem step_frame (h : step s = .next t) : Frame (stepFootprint s) s t := by
  have resumed := (Frame.refl s).setRun .running
  have advanced := resumed.setPc (s.pc + 2)
  rcases (step_next_cases h).2 with ⟨-, rfl⟩ | ⟨w, e, -, -, rfl⟩ | ⟨w, i, hf, hd, hx⟩
  · exact (resumed.enterFault _ _ _).of_stages (by decide)
  · exact (advanced.enterFault _ _ _).of_stages (by decide)
  · rcases exec_next_cases hx with ⟨kind, rfl⟩ | hexec
    · exact (advanced.enterFault _ _ _).of_stages (by decide)
    · exact (advanced.of_stages (by decide)).trans (hexec.of_execution rfl (State.nextInstr_of_ok hf hd))

/-- R25: call and return alone write the stack. -/
theorem step_stack_unchanged (h : step s = .next t) (hcall : ∀ nnn, s.nextInstr ≠ some (.call nnn))
    (hret : s.nextInstr ≠ some .ret) : t.stack = s.stack ∧ t.sp = s.sp := by
  refine (step_frame h).stack (notMem_stepFootprint_parts (by decide) fun i hi => ?_)
  cases i with
  | call nnn => exact absurd hi (hcall nnn)
  | ret => exact absurd hi hret
  | _ => simp [footprint]

/-- R48: bcd-store and reg-dump alone write memory. -/
theorem step_mem_unchanged (h : step s = .next t) (hbcd : ∀ x, s.nextInstr ≠ some (.bcdStore x))
    (hdump : ∀ x, s.nextInstr ≠ some (.regDump x)) : t.mem = s.mem := by
  refine (step_frame h).mem (stepFootprint_storeLen_eq_zero fun i hi => ?_)
  cases i with
  | bcdStore x => exact absurd hi (hbcd x)
  | regDump x => exact absurd hi (hdump x)
  | _ => rfl

/-- R31: clear-display and draw alone write the display. -/
theorem step_display_unchanged (h : step s = .next t) (hclear : s.nextInstr ≠ some .clearDisplay)
    (hdraw : ∀ x y n, s.nextInstr ≠ some (.draw x y n)) : t.display = s.display := by
  refine (step_frame h).display (notMem_stepFootprint_parts (by decide) fun i hi => ?_)
  cases i with
  | clearDisplay => exact absurd hi hclear
  | draw x y n => exact absurd hi (hdraw x y n)
  | _ => simp [footprint]

/-- R26: set-delay alone writes `DT`. -/
theorem step_dt_unchanged (h : step s = .next t) (hset : ∀ x, s.nextInstr ≠ some (.setDelay x)) : t.dt = s.dt := by
  refine (step_frame h).delay (notMem_stepFootprint_parts (by decide) fun i hi => ?_)
  cases i with
  | setDelay x => exact absurd hi (hset x)
  | _ => simp [footprint]

/-- R27: set-sound alone writes `ST`. -/
theorem step_st_unchanged (h : step s = .next t) (hset : ∀ x, s.nextInstr ≠ some (.setSound x)) : t.st = s.st := by
  refine (step_frame h).sound (notMem_stepFootprint_parts (by decide) fun i hi => ?_)
  cases i with
  | setSound x => exact absurd hi (hset x)
  | _ => simp [footprint]

theorem step_cfg_unchanged (h : step s = .next t) : t.cfg = s.cfg := (step_frame h).cfg

end StepFrame

/-- What `MemRead` gives depends on the parameters and the memory alone (R41). -/
theorem State.memRead_congr {s t : State} (hcfg : t.cfg = s.cfg) (hmem : t.mem = s.mem) (a : Nat) :
    t.memRead a = s.memRead a := by
  simp only [State.memRead, hcfg, hmem]

end Sys2Proof.Machine
end

section
/-! PROOFS. The checked accesses of one byte and of one word (R41, R44). -/

namespace Sys2Proof.Machine

/-- A one-byte store answers exactly inside memory, and then only memory differs. -/
theorem State.memWrite_eq_some (s t : State) (a : Nat) (b : Byte) :
    s.memWrite a b = some t ↔ a < Config.memSize ∧ t = s.setMem (Memory.write s.cfg s.mem a b) := by
  unfold State.memWrite
  split
  case isTrue h => simp [h, eq_comm]
  case isFalse h => simp [h]

theorem State.memWrite_eq_none (s : State) (a : Nat) (b : Byte) :
    s.memWrite a b = none ↔ Config.memSize ≤ a := by
  unfold State.memWrite
  split <;> simp_all

/-- `MemRead` after a one-byte store inside memory. -/
theorem State.memRead_write (s : State) (a q : Nat) (b : Byte) (h : a < Config.memSize) :
    (s.setMem (Memory.write s.cfg s.mem a b)).memRead q = if q = a then some b else s.memRead q := by
  rw [State.memRead_setMem, Memory.read_write]
  by_cases hq : q = a
  · simp only [hq, h, if_true]
  · simp only [hq, if_false, State.memRead]

/-- Two bytes that can be read one after the other are fetched as a word (R44, R81). -/
theorem State.fetchWord_of_memRead {s : State} {a : Nat} {hi lo : Byte} (hhi : s.memRead a = some hi)
    (hlo : s.memRead (a + 1) = some lo) : s.fetchWord a = some (wordOfBytes hi lo) := by
  obtain ⟨-, rfl⟩ := (State.memRead_eq_some s a hi).mp hhi
  obtain ⟨hlt, rfl⟩ := (State.memRead_eq_some s (a + 1) lo).mp hlo
  exact (State.fetchWord_eq_some s a _).mpr ⟨hlt, rfl⟩

/-- Every byte of a stored block is read back at its address (R47). -/
theorem State.memRead_of_writeBlock {s t : State} {base k : Nat} {bs : List Byte} (h : s.writeBlock base bs = some t)
    (hk : k < bs.length) : t.memRead (base + k) = some (bs.getD k 0) := by
  obtain ⟨hin, rfl⟩ := (State.writeBlock_eq_some s t base bs).mp h
  rw [State.memRead_writeBytes s base _ bs hin, if_pos (by omega), Nat.add_sub_cancel_left]

end Sys2Proof.Machine
end

section
/-! PROOFS. The statements about memory (20_memory.md). -/

namespace Sys2Proof.Proofs

open Sys2Proof.Machine

/-- Settles O8: both bytes of the word are read back from the block. -/
theorem storedWordIsFetchedNext : Obligations.StoredWordIsFetchedNext := by
  intro s t base bs k h hk
  exact State.fetchWord_of_memRead (State.memRead_of_writeBlock h (by omega)) (State.memRead_of_writeBlock h hk)

/-- Settles O49: the frame of a step, read off for each storage. -/
theorem storageIsWrittenByItsInstructionsOnly : Obligations.StorageIsWrittenByItsInstructionsOnly :=
  fun _ _ h => ⟨step_stack_unchanged h,
    fun hbcd hdump => State.memRead_congr (step_cfg_unchanged h) (step_mem_unchanged h hbcd hdump),
    step_display_unchanged h, step_dt_unchanged h, step_st_unchanged h, step_cfg_unchanged h⟩

/-- Settles O7, on either side of the bound. -/
theorem memReadAfterMemWrite : Obligations.MemReadAfterMemWrite := by
  intro s a b
  refine ⟨fun ha => ?_, fun ha => ?_⟩
  · have hlt : a < Config.memSize := Nat.lt_succ_of_le ha
    refine ⟨_, (State.memWrite_eq_some s _ a b).mpr ⟨hlt, rfl⟩, ?_, fun q hq => ?_,
      _, (State.memRead_eq_some s a _).mpr ⟨hlt, rfl⟩⟩
    · rw [State.memRead_write s a a b hlt, if_pos rfl]
    · rw [State.memRead_write s a q b hlt, if_neg hq]
  · exact ⟨(State.memWrite_eq_none s a b).mpr ha, (State.memRead_eq_none s a).mpr ha⟩

end Sys2Proof.Proofs
end

section
/-! PROOFS. The round trips between decoder and encoder (R64 to R70, R75). From the word to the instruction: the fields of an
encoded word are its operands, so that dispatch finds them. From the instruction to the word: each format is the layout of the
fields that it takes from the word. -/

namespace Sys2Proof

/-- Every instruction is what its word decodes to: by format, and for the families 0, 5, 8, 9, E and F by the second key
(R64 to R69). -/
theorem decodeWord_encode (i : Instr) : decodeWord (encode i) = .ok i := by
  cases i with
  | halt | clearDisplay | ret => rfl
  | jump nnn | call nnn | loadIndex nnn | jumpWithOffset nnn => simp [decodeWord, encode, dispatch, fieldsOf_wordNNN]
  | skipEqByte x kk | skipNeByte x kk | loadImmediate x kk | addImmediate x kk | randomAnd x kk =>
    simp [decodeWord, encode, dispatch, fieldsOf_wordXKK]
  | skipEqReg x y | skipNeReg x y => simp [decodeWord, encode, dispatch, requireN0, fieldsOf_wordXYN]
  | move x y | or x y | and x y | xor x y | addReg x y | sub x y | shiftRight x y | subn x y | shiftLeft x y =>
    simp [decodeWord, encode, dispatch, decodeFamily8, fieldsOf_wordXYN]
  | draw x y n => simp [decodeWord, encode, dispatch, fieldsOf_wordXYN]
  | keyPressed x | keyNotPressed x => simp [decodeWord, encode, dispatch, decodeFamilyE, fieldsOf_wordXKK]
  | getDelay x | waitKey x | setDelay x | setSound x | addIndex x | spriteAddress x | bcdStore x | regDump x | regLoad x =>
    simp [decodeWord, encode, dispatch, decodeFamilyF, fieldsOf_wordXKK]

/-- A word is the layout NNN of its leading nibble and its address. -/
theorem wordNNN_of_fieldsOf {w : Word} {op : Nibble} (h : (fieldsOf w).op.val = op.toNat) :
    wordNNN op (fieldsOf w).nnn = w := by
  obtain ⟨hop, -, -, -, -, hnnn⟩ := fieldsOf_nat w
  apply BitVec.eq_of_toNat_eq
  rw [wordNNN_toNat]
  omega

/-- A word is the layout XKK of its leading nibble, its register and its byte. -/
theorem wordXKK_of_fieldsOf {w : Word} {op : Nibble} (h : (fieldsOf w).op.val = op.toNat) :
    wordXKK op (fieldsOf w).x (fieldsOf w).kk = w := by
  obtain ⟨hop, hx, -, -, hkk, -⟩ := fieldsOf_nat w
  apply BitVec.eq_of_toNat_eq
  rw [wordXKK_toNat]
  omega

/-- A word is the layout XYN of its four nibbles. -/
theorem wordXYN_of_fieldsOf {w : Word} {op : Nibble} (h : (fieldsOf w).op.val = op.toNat) :
    wordXYN op (fieldsOf w).x (fieldsOf w).y (fieldsOf w).n = w := by
  obtain ⟨hop, hx, hy, hn, -, -⟩ := fieldsOf_nat w
  apply BitVec.eq_of_toNat_eq
  rw [wordXYN_toNat]
  omega

section Families

variable {f : Fields} {i : Instr}

theorem encode_of_decodeFamily0 (h : decodeFamily0 f = .ok i) : encode i = wordNNN 0x0 f.nnn := by
  unfold decodeFamily0 at h
  have hnnn : f.nnn = BitVec.ofNat 12 f.nnn.toNat := by simp
  split at h <;> cases h
  all_goals rw [hnnn, ‹f.nnn.toNat = _›]; rfl

theorem encode_of_decodeFamily8 (h : decodeFamily8 f = .ok i) : encode i = wordXYN 0x8 f.x f.y f.n := by
  unfold decodeFamily8 at h
  split at h <;> cases h
  all_goals exact congrArg (wordXYN 0x8 f.x f.y) (Fin.ext ‹f.n.val = _›.symm)

theorem encode_of_decodeFamilyE (h : decodeFamilyE f = .ok i) : encode i = wordXKK 0xE f.x f.kk := by
  unfold decodeFamilyE at h
  split at h <;> cases h
  all_goals exact congrArg (wordXKK 0xE f.x) (BitVec.eq_of_toNat_eq ‹f.kk.toNat = _›.symm)

theorem encode_of_decodeFamilyF (h : decodeFamilyF f = .ok i) : encode i = wordXKK 0xF f.x f.kk := by
  unfold decodeFamilyF at h
  split at h <;> cases h
  all_goals exact congrArg (wordXKK 0xF f.x) (BitVec.eq_of_toNat_eq ‹f.kk.toNat = _›.symm)

theorem requireN0_eq_ok {why : Reject} {j : Instr} : requireN0 f why i = .ok j ↔ f.n = 0 ∧ i = j := by
  by_cases hn : f.n = 0 <;> simp [requireN0, hn]

theorem requireN0_eq_error {why e : Reject} : requireN0 f why i = .error e ↔ f.n ≠ 0 ∧ why = e := by
  by_cases hn : f.n = 0 <;> simp [requireN0, hn]

end Families

/-- A word that decodes is the word of what it decodes to (R64, R70). Arm `h_k` of the dispatch is the leading nibble
`k - 1`; the default arm leaves 0xF alone. -/
theorem encode_of_decodeWord {w : Word} {i : Instr} (h : decodeWord w = .ok i) : encode i = w := by
  unfold decodeWord dispatch at h
  split at h
  case h_1 hop => exact (encode_of_decodeFamily0 h).trans (wordNNN_of_fieldsOf hop)
  case h_9 hop => exact (encode_of_decodeFamily8 h).trans (wordXYN_of_fieldsOf hop)
  case h_15 hop => exact (encode_of_decodeFamilyE h).trans (wordXKK_of_fieldsOf hop)
  case h_16 =>
    have hop : (fieldsOf w).op.val = 0xF := by
      have := (fieldsOf w).op.isLt
      simp only [imp_false] at *
      omega
    exact (encode_of_decodeFamilyF h).trans (wordXKK_of_fieldsOf hop)
  case h_6 hop | h_10 hop =>
    obtain ⟨hn, rfl⟩ := requireN0_eq_ok.mp h
    rw [encode, ← hn, wordXYN_of_fieldsOf hop]
  all_goals obtain rfl := Except.ok.inj h
  case h_2 hop | h_3 hop | h_11 hop | h_12 hop => exact wordNNN_of_fieldsOf hop
  case h_14 hop => exact wordXYN_of_fieldsOf hop
  case h_4 hop | h_5 hop | h_7 hop | h_8 hop | h_13 hop => exact wordXKK_of_fieldsOf hop

end Sys2Proof
end

section
/-! PROOFS. The rejected words: the class of R70 of each rejection, family by family. -/

namespace Sys2Proof

/-- The word lies in the class of R70 that the rejection names; a whole word is never too short. -/
def Reject.Covers (w : Word) : Reject → Prop
  | .family0 => w.toNat / 4096 = 0x0 ∧ w.toNat ≠ 0x0000 ∧ w.toNat ≠ 0x00E0 ∧ w.toNat ≠ 0x00EE
  | .family5 => w.toNat / 4096 = 0x5 ∧ w.toNat % 16 ≠ 0
  | .family8 => w.toNat / 4096 = 0x8 ∧ (8 ≤ w.toNat % 16 ∧ w.toNat % 16 ≤ 13 ∨ w.toNat % 16 = 15)
  | .family9 => w.toNat / 4096 = 0x9 ∧ w.toNat % 16 ≠ 0
  | .familyE => w.toNat / 4096 = 0xE ∧ w.toNat % 256 ≠ 0x9E ∧ w.toNat % 256 ≠ 0xA1
  | .familyF =>
    w.toNat / 4096 = 0xF ∧ w.toNat % 256 ∉ [0x07, 0x0A, 0x15, 0x18, 0x1E, 0x29, 0x33, 0x55, 0x65]
  | .truncated => False

section Families

variable {f : Fields} {e : Reject}

theorem decodeFamily0_eq_error :
    decodeFamily0 f = .error e ↔
      .family0 = e ∧ f.nnn.toNat ≠ 0x000 ∧ f.nnn.toNat ≠ 0x0E0 ∧ f.nnn.toNat ≠ 0x0EE := by
  unfold decodeFamily0
  split <;> simp_all

theorem decodeFamily8_eq_error :
    decodeFamily8 f = .error e ↔ .family8 = e ∧ (8 ≤ f.n.val ∧ f.n.val ≤ 13 ∨ f.n.val = 15) := by
  have hn := f.n.isLt
  unfold decodeFamily8
  split <;> simp_all
  omega

theorem decodeFamilyE_eq_error :
    decodeFamilyE f = .error e ↔ .familyE = e ∧ f.kk.toNat ≠ 0x9E ∧ f.kk.toNat ≠ 0xA1 := by
  unfold decodeFamilyE
  split <;> simp_all

theorem decodeFamilyF_eq_error :
    decodeFamilyF f = .error e ↔
      .familyF = e ∧ f.kk.toNat ∉ [0x07, 0x0A, 0x15, 0x18, 0x1E, 0x29, 0x33, 0x55, 0x65] := by
  unfold decodeFamilyF
  split <;> simp_all

end Families

theorem Reject.Covers.leading_nibble {w : Word} {e : Reject} (h : e.Covers w) :
    w.toNat / 4096 = 0x0 ∨ w.toNat / 4096 = 0x5 ∨ w.toNat / 4096 = 0x8 ∨ w.toNat / 4096 = 0x9 ∨
      w.toNat / 4096 = 0xE ∨ w.toNat / 4096 = 0xF := by
  cases e <;> simp only [Reject.Covers] at h <;> omega

/-- The decoder rejects a word under a name exactly when the word lies in the class of that name (R70): in six arms of the
dispatch its family or its required nibble says so, and the ten others answer an instruction, where no class lies. -/
theorem decodeWord_eq_error {w : Word} {e : Reject} : decodeWord w = .error e ↔ e.Covers w := by
  have hlt := (fieldsOf w).op.isLt
  obtain ⟨hop, -, -, hn, hkk, hnnn⟩ := fieldsOf_nat w
  unfold decodeWord dispatch
  split
  case' h_1 => rw [decodeFamily0_eq_error, hnnn]
  case' h_6 | h_10 => rw [requireN0_eq_error, Fin.ext_iff.ne, hn]
  case' h_9 => rw [decodeFamily8_eq_error, hn]
  case' h_15 => rw [decodeFamilyE_eq_error, hkk]
  case' h_16 =>
    simp only [imp_false] at *
    rw [decodeFamilyF_eq_error, hkk]
  case h_1 | h_6 | h_9 | h_10 | h_15 | h_16 => cases e <;> simp [Reject.Covers] <;> omega
  all_goals
    refine iff_of_false nofun fun hc => ?_
    have := hc.leading_nibble
    omega

end Sys2Proof
end

section
/-! PROOFS. The opcode map against the decoder (R72, R75). -/

namespace Sys2Proof

theorem encode_inRow (i : Instr) : Laws.InRow.Statement i := by
  cases i
  exacts [Laws.InRow.halt, Laws.InRow.clearDisplay, Laws.InRow.ret, Laws.InRow.jump _, Laws.InRow.call _,
    Laws.InRow.skipEqByte _ _, Laws.InRow.skipNeByte _ _, Laws.InRow.skipEqReg _ _, Laws.InRow.loadImmediate _ _,
    Laws.InRow.addImmediate _ _, Laws.InRow.move _ _, Laws.InRow.or _ _, Laws.InRow.and _ _, Laws.InRow.xor _ _,
    Laws.InRow.addReg _ _, Laws.InRow.sub _ _, Laws.InRow.shiftRight _ _, Laws.InRow.subn _ _,
    Laws.InRow.shiftLeft _ _, Laws.InRow.skipNeReg _ _, Laws.InRow.loadIndex _, Laws.InRow.jumpWithOffset _,
    Laws.InRow.randomAnd _ _, Laws.InRow.draw _ _ _, Laws.InRow.keyPressed _, Laws.InRow.keyNotPressed _,
    Laws.InRow.getDelay _, Laws.InRow.waitKey _, Laws.InRow.setDelay _, Laws.InRow.setSound _, Laws.InRow.addIndex _,
    Laws.InRow.spriteAddress _, Laws.InRow.bcdStore _, Laws.InRow.regDump _, Laws.InRow.regLoad _]

theorem exists_opcodeRow_eq : ∀ r ∈ opcodeTable, ∃ i, opcodeRow i = r := by
  simp [opcodeTable]

/-- The map lists the operations in the order of the constructors. -/
theorem opcodeTable_getElem?_ctorIdx (i : Instr) : opcodeTable[i.ctorIdx]? = some (opcodeRow i) := by
  cases i <;> rfl

theorem OpcodeRow.selects_iff {r : OpcodeRow} {w : Word} : r.selects w = true ↔ w &&& r.mask = r.pattern := by
  simp [OpcodeRow.selects]

/-- A row selects the words of its instructions. -/
theorem opcodeRow_selects_encode (i : Instr) : (opcodeRow i).selects (encode i) = true :=
  OpcodeRow.selects_iff.mpr (encode_inRow i)

section Masks

variable {w m p : Word} {op : Nibble}

/-- A masked word keeps the bits of every field where the mask holds ones. -/
theorem extractLsb'_of_masked {start len : Nat} (h : w &&& m = p) (hm : m.extractLsb' start len = BitVec.allOnes len) :
    w.extractLsb' start len = p.extractLsb' start len := by
  rw [← h, BitVec.extractLsb'_and, hm, BitVec.and_allOnes]

theorem fieldsOf_op_of_masked (h : w &&& m = p) (hm : m.extractLsb' 12 4 = 0xF) : (fieldsOf w).op = (fieldsOf p).op :=
  congrArg BitVec.toFin (extractLsb'_of_masked h hm)

theorem word_of_masked (h : w &&& 0xFFFF = p) : p = w :=
  h.symm.trans BitVec.and_allOnes

theorem wordNNN_of_masked (h : w &&& 0xF000 = wordNNN op 0) : wordNNN op (fieldsOf w).nnn = w := by
  apply wordNNN_of_fieldsOf
  rw [fieldsOf_op_of_masked h rfl, (fieldsOf_wordNNN op 0).1]

theorem wordXKK_of_masked (h : w &&& 0xF000 = wordXKK op 0 0) : wordXKK op (fieldsOf w).x (fieldsOf w).kk = w := by
  apply wordXKK_of_fieldsOf
  rw [fieldsOf_op_of_masked h rfl, (fieldsOf_wordXKK op 0 0).1]

theorem wordXFF_of_masked {kk : Byte} (h : w &&& 0xF0FF = wordXKK op 0 kk) : wordXKK op (fieldsOf w).x kk = w := by
  obtain ⟨hop, -, hkk⟩ := fieldsOf_wordXKK op 0 kk
  have hw : (fieldsOf w).kk = kk := (extractLsb'_of_masked h rfl).trans hkk
  rw [← fieldsOf_op_of_masked h rfl] at hop
  rw [← hw, wordXKK_of_fieldsOf hop]

theorem wordXYF_of_masked {n : RegIdx} (h : w &&& 0xF00F = wordXYN op 0 0 n) :
    wordXYN op (fieldsOf w).x (fieldsOf w).y n = w := by
  obtain ⟨hop, -, -, hn⟩ := fieldsOf_wordXYN op 0 0 n
  have hw : (fieldsOf w).n = n := (congrArg BitVec.toFin (extractLsb'_of_masked h rfl)).trans hn
  rw [← fieldsOf_op_of_masked h rfl] at hop
  rw [← hw, wordXYN_of_fieldsOf hop]

theorem wordXYN_of_masked (h : w &&& 0xF000 = wordXYN op 0 0 0) :
    wordXYN op (fieldsOf w).x (fieldsOf w).y (fieldsOf w).n = w := by
  apply wordXYN_of_fieldsOf
  rw [fieldsOf_op_of_masked h rfl, (fieldsOf_wordXYN op 0 0 0).1]

end Masks

/-- A word that a row selects is the word of an instruction of that row: the mask leaves the operands free. -/
theorem exists_encode_of_selects {i : Instr} {w : Word} (h : (opcodeRow i).selects w = true) :
    ∃ j, encode j = w ∧ opcodeRow j = opcodeRow i := by
  rw [OpcodeRow.selects_iff] at h
  cases i
  exacts [⟨.halt, word_of_masked h, rfl⟩, ⟨.clearDisplay, word_of_masked h, rfl⟩, ⟨.ret, word_of_masked h, rfl⟩,
    ⟨.jump _, wordNNN_of_masked h, rfl⟩, ⟨.call _, wordNNN_of_masked h, rfl⟩,
    ⟨.skipEqByte _ _, wordXKK_of_masked h, rfl⟩, ⟨.skipNeByte _ _, wordXKK_of_masked h, rfl⟩,
    ⟨.skipEqReg _ _, wordXYF_of_masked h, rfl⟩, ⟨.loadImmediate _ _, wordXKK_of_masked h, rfl⟩,
    ⟨.addImmediate _ _, wordXKK_of_masked h, rfl⟩, ⟨.move _ _, wordXYF_of_masked h, rfl⟩,
    ⟨.or _ _, wordXYF_of_masked h, rfl⟩, ⟨.and _ _, wordXYF_of_masked h, rfl⟩, ⟨.xor _ _, wordXYF_of_masked h, rfl⟩,
    ⟨.addReg _ _, wordXYF_of_masked h, rfl⟩, ⟨.sub _ _, wordXYF_of_masked h, rfl⟩,
    ⟨.shiftRight _ _, wordXYF_of_masked h, rfl⟩, ⟨.subn _ _, wordXYF_of_masked h, rfl⟩,
    ⟨.shiftLeft _ _, wordXYF_of_masked h, rfl⟩, ⟨.skipNeReg _ _, wordXYF_of_masked h, rfl⟩,
    ⟨.loadIndex _, wordNNN_of_masked h, rfl⟩, ⟨.jumpWithOffset _, wordNNN_of_masked h, rfl⟩,
    ⟨.randomAnd _ _, wordXKK_of_masked h, rfl⟩, ⟨.draw _ _ _, wordXYN_of_masked h, rfl⟩,
    ⟨.keyPressed _, wordXFF_of_masked h, rfl⟩, ⟨.keyNotPressed _, wordXFF_of_masked h, rfl⟩,
    ⟨.getDelay _, wordXFF_of_masked h, rfl⟩, ⟨.waitKey _, wordXFF_of_masked h, rfl⟩,
    ⟨.setDelay _, wordXFF_of_masked h, rfl⟩, ⟨.setSound _, wordXFF_of_masked h, rfl⟩,
    ⟨.addIndex _, wordXFF_of_masked h, rfl⟩, ⟨.spriteAddress _, wordXFF_of_masked h, rfl⟩,
    ⟨.bcdStore _, wordXFF_of_masked h, rfl⟩, ⟨.regDump _, wordXFF_of_masked h, rfl⟩,
    ⟨.regLoad _, wordXFF_of_masked h, rfl⟩]

/-- A row of the map selects exactly the words that decode to an instruction of that row (R75). -/
theorem opcodeRow_selects_iff {i : Instr} {w : Word} :
    (opcodeRow i).selects w = true ↔ ∃ j, decodeWord w = .ok j ∧ opcodeRow j = opcodeRow i := by
  constructor
  · intro h
    obtain ⟨j, rfl, hrow⟩ := exists_encode_of_selects h
    exact ⟨j, decodeWord_encode j, hrow⟩
  · rintro ⟨j, hd, hrow⟩
    rw [← hrow, ← encode_of_decodeWord hd]
    exact opcodeRow_selects_encode j

end Sys2Proof
end

section
/-! PROOFS. The statements about the encoding (30_encoding.md). -/

namespace Sys2Proof.Proofs

/-- Settles O3. -/
theorem decodeInvertsEncode : Obligations.DecodeInvertsEncode := decodeWord_encode

/-- Settles O4. -/
theorem encodeInvertsDecode : Obligations.EncodeInvertsDecode := fun _ _ => encode_of_decodeWord

/-- Settles O5: the class that each rejection covers. -/
theorem undefinedWordsAreTheSixClasses : Obligations.UndefinedWordsAreTheSixClasses := fun _ =>
  ⟨decodeWord_eq_error, decodeWord_eq_error, decodeWord_eq_error, decodeWord_eq_error, decodeWord_eq_error,
    decodeWord_eq_error, decodeWord_eq_error.mp⟩

/-- Settles O6: decoding gives a word one instruction, hence one row, and a rejected word none. -/
theorem opcodeMapMatchesDecoder : Obligations.OpcodeMapMatchesDecoder := by
  refine ⟨rfl, fun w => ⟨fun i hd r hr => ?_, fun i _ => ?_, fun e hd r hr => ?_⟩⟩
  · obtain ⟨k, rfl⟩ := exists_opcodeRow_eq r hr
    rw [opcodeRow_selects_iff]
    constructor
    · rintro ⟨j, hj, hrow⟩
      obtain rfl := Except.ok.inj (hd.symm.trans hj)
      exact hrow.symm
    · exact fun hrow => ⟨i, hd, hrow.symm⟩
  · exact List.mem_of_getElem? (opcodeTable_getElem?_ctorIdx i)
  · obtain ⟨k, rfl⟩ := exists_opcodeRow_eq r hr
    simp [← Bool.not_eq_true, opcodeRow_selects_iff, hd]

/-- Settles O1: the fields by the word, and the word by its bytes. -/
theorem fieldsAreTheStatedBits : Obligations.FieldsAreTheStatedBits := by
  rintro w hi lo rfl
  obtain ⟨hop, hx, hy, hn, hkk, hnnn⟩ := fieldsOf_nat (wordOfBytes hi lo)
  have hlo := lo.isLt
  have hhi := hi.isLt
  have hw := Machine.wordOfBytes_toNat hi lo
  refine ⟨hop, ?_, hx, ?_, hy, ?_, hn, ?_, hkk, ?_, hnnn, ?_⟩ <;> omega

/-- Settles O2: seven of the words are the words of the instructions, and the last lies in its class. -/
theorem specWordsDecode : Obligations.SpecWordsDecode :=
  ⟨decodeWord_encode (.addReg 0 1), decodeWord_encode (.jump 0x200), decodeWord_encode .ret,
    decodeWord_encode (.skipEqByte 15 0x01), decodeWord_encode (.draw 1 2 5), decodeWord_encode (.keyPressed 1),
    decodeWord_encode (.regLoad 2), decodeWord_eq_error.mpr ⟨rfl, by decide⟩⟩

end Sys2Proof.Proofs
end

section
/-! PROOFS. The step by its first stages, said for each run state and for a fetch that fails, and the questions that a step asks
of the environment. -/

namespace Sys2Proof.Machine

section StepStages

variable {s t : State} {i : Instr}

theorem step_of_halted (hr : s.runState = .halted) : step s = .fault .steppedWhileHalted := by
  simp only [step, hr, stepInHalted]

theorem step_of_faulted (hr : s.runState = .faulted) : step s = .fault .steppedWhileFaulted := by
  simp only [step, hr, stepInFaulted]

/-- The two run states that have a step have the same one (R80, R86). -/
theorem step_resume (hact : s.Active) : step s.resume = step s := by
  rcases hact with hr | hr
  · simp only [step, hr, State.resume, State.setRun_runState]
    rfl
  · simp only [step, hr, State.resume, State.setRun_runState]
    rfl

theorem State.fetched_eq_none : s.fetched = none ↔ 0xFFF ≤ s.pc.toNat :=
  (State.fetchWord_eq_none s _).trans Nat.succ_le_succ_iff

/-- A step whose fetch fails ends in the fault of the fetch, with `pc` not advanced (R81). -/
theorem step_of_fetched_none (hact : s.Active) (hf : s.fetched = none) : step s = .next s.resume.fetchFault := by
  have hf' : s.resume.fetched = none := hf
  rcases hact with hr | hr
  · simp only [step, hr, hf']
  · simp only [step, hr, hf']

/-- An execution asks no question or one (R90). -/
theorem exec_env_cases (h : exec i s = .next t) : t.env = s.env ∨ t.env.asked = s.env.asked + 1 := by
  rcases exec_next_cases h with ⟨kind, rfl⟩ | hf
  · exact .inl rfl
  by_cases hpart : Part.env ∈ (footprint i s).parts
  case neg => exact .inl (hf.env hpart)
  cases i with
  | randomAnd x kk =>
    obtain rfl := exec_next_unique h rfl
    exact .inr rfl
  | keyPressed x =>
    by_cases hk : (s.reg x).toNat < 16
    · obtain rfl := exec_next_unique h (execKeyPressed_of_key x s ⟨_, hk⟩ rfl)
      rw [State.skipIf_eq]
      exact .inr rfl
    · obtain rfl := exec_next_unique h (execKeyPressed_of_large x s (by omega))
      exact .inl rfl
  | keyNotPressed x =>
    by_cases hk : (s.reg x).toNat < 16
    · obtain rfl := exec_next_unique h (execKeyNotPressed_of_key x s ⟨_, hk⟩ rfl)
      rw [State.skipIf_eq]
      exact .inr rfl
    · obtain rfl := exec_next_unique h (execKeyNotPressed_of_large x s (by omega))
      exact .inl rfl
  | waitKey x =>
    cases hk : s.keyPressAnswer with
    | some k =>
      obtain rfl := exec_next_unique h (execWaitKey_of_key x s k hk)
      exact .inr rfl
    | none =>
      obtain rfl := exec_next_unique h (execWaitKey_of_none x s hk)
      exact .inr rfl
  | _ => simp [footprint] at hpart

/-- The stages around execution ask nothing, so a step asks no question or one (R90). -/
theorem step_env_cases (h : step s = .next t) : t.env = s.env ∨ t.env.asked = s.env.asked + 1 := by
  rcases (step_next_cases h).2 with ⟨-, rfl⟩ | ⟨w, e, -, -, rfl⟩ | ⟨w, i, -, -, hx⟩
  · exact .inl rfl
  · exact .inl rfl
  · exact (exec_env_cases hx :)

/-- R32, R90: random-and, key-pressed, key-not-pressed and wait-key alone touch the environment. -/
theorem step_env_unchanged (h : step s = .next t) (hrandom : ∀ x kk, s.nextInstr ≠ some (.randomAnd x kk))
    (hkey : ∀ x, s.nextInstr ≠ some (.keyPressed x)) (hnotKey : ∀ x, s.nextInstr ≠ some (.keyNotPressed x))
    (hwait : ∀ x, s.nextInstr ≠ some (.waitKey x)) : t.env = s.env := by
  refine (step_frame h).env (notMem_stepFootprint_parts (by decide) fun i hi => ?_)
  cases i with
  | randomAnd x kk => exact absurd hi (hrandom x kk)
  | keyPressed x => exact absurd hi (hkey x)
  | keyNotPressed x => exact absurd hi (hnotKey x)
  | waitKey x => exact absurd hi (hwait x)
  | _ => simp [footprint]

end StepStages

end Sys2Proof.Machine
end

section
/-! PROOFS. The statements about the execution cycle (40_execution_cycle.md). -/

namespace Sys2Proof.Proofs

open Sys2Proof.Machine

/-- Settles O51: the count rises where a question is asked, and the step's frame keeps the environment elsewhere. -/
theorem oneQuestionAStep : Obligations.OneQuestionAStep := by
  intro s t h
  refine ⟨?_, step_env_unchanged h⟩
  rcases step_env_cases h with henv | hasked
  · rw [henv]
    exact Nat.le_succ _
  · exact hasked.le

/-- Settles O57, by the invariant's rule for each host move. -/
theorem hostMovesKeepTheInvariant : Obligations.HostMovesKeepTheInvariant := fun _ _ _ => HostMove.apply_inv

/-- Settles O9: the two bytes are the fetched word, so `i` is the instruction that the step executes. -/
theorem stepRunsDecodedInstruction : Obligations.StepRunsDecodedInstruction := fun _ _ _ _ hact hhi hlo hd =>
  step_eq_exec hact (State.nextInstr_of_ok (State.fetchWord_of_memRead hhi hlo) hd)

/-- Settles O10, on either side of the last address that has a byte after it. -/
theorem fetchFaultsOnlyPastMemory : Obligations.FetchFaultsOnlyPastMemory := by
  intro s hact
  refine ⟨fun hpc => ?_, fun hpc => ?_⟩
  · exact ⟨_, _, step_of_fetched_none hact (State.fetched_eq_none.mpr hpc), rfl, rfl, rfl, rfl, rfl⟩
  · have hhi := (State.memRead_eq_some s s.pc.toNat _).mpr ⟨by rw [memSize_eq]; omega, rfl⟩
    have hlo := (State.memRead_eq_some s (s.pc.toNat + 1) _).mpr ⟨by rw [memSize_eq]; omega, rfl⟩
    exact ⟨_, _, _, State.fetchWord_of_memRead hhi hlo, hhi, hlo, wordOfBytes_toNat _ _⟩

/-- Settles O15. -/
theorem stoppedMachineHasNoStep : Obligations.StoppedMachineHasNoStep :=
  fun _ => ⟨step_of_halted, step_of_faulted, fun _ h => (step_next_cases h).1⟩

/-- Settles O16: a waiting machine is active, and its step resumes it first. -/
theorem waitingStepIsOrdinary : Obligations.WaitingStepIsOrdinary := fun _ hwait => (step_resume (.inr hwait)).symm

/-- Settles O26: halt sets the run state, and the frame of that update is the claimed one. -/
theorem haltStopsTheMachine : Obligations.HaltStopsTheMachine :=
  fun s => ⟨_, rfl, rfl, ((Frame.refl s).setRun .halted).toKeeps⟩

end Sys2Proof.Proofs
end

section
/-! PROOFS. What control transfer does: the targets as numbers, the skips, call and return as inverse moves on the stack, and a
step by the execution of its instruction. -/

namespace Sys2Proof.Machine

section ControlTransfer

variable {s t : State} {i : Instr} {ps qs : List Part}

theorem absoluteAddr_toNat (nnn : Addr12) : (absoluteAddr nnn).toNat = nnn.toNat :=
  BitVec.toNat_setWidth_of_le (by decide)

theorem wideReg_toNat (s : State) (r : RegIdx) : (wideReg s r).toNat = (s.reg r).toNat :=
  BitVec.toNat_setWidth_of_le (by decide)

/-- The largest sum is 0x10FE, so that the 16 bits hold it (R107). -/
theorem absoluteAddr_add_wideReg_toNat (nnn : Addr12) (s : State) (r : RegIdx) :
    (absoluteAddr nnn + wideReg s r).toNat = nnn.toNat + (s.reg r).toNat := by
  have := nnn.isLt
  have := (s.reg r).isLt
  rw [BitVec.toNat_add, absoluteAddr_toNat, wideReg_toNat, Nat.mod_eq_of_lt (by omega)]

theorem State.skipIf_beq_pc (s : State) (a b : Byte) :
    (s.skipIf (a == b)).pc = if a = b then s.pc + 2 else s.pc := by
  simp only [State.skipIf_pc, beq_iff_eq]

theorem State.skipIf_bne_pc (s : State) (a b : Byte) :
    (s.skipIf (a != b)).pc = if a = b then s.pc else s.pc + 2 := by
  simp only [State.skipIf_pc, bne_iff_ne, ite_not]

theorem State.setPc_keeps (s : State) (a : Word) : Keeps { parts := [.pc] } s (s.setPc a) :=
  ((Frame.refl s).setPc a).toKeeps

theorem State.skipIf_keeps (s : State) (taken : Bool) : Keeps { parts := [.pc] } s (s.skipIf taken) :=
  ((Frame.refl s).skipIf taken).toKeeps

/-- With a free slot, call stores `pc` in it and takes its target (R25, R102). -/
theorem exec_call_of_room (nnn : Addr12) (hsp : s.sp.val < 16) :
    ∃ t, exec (.call nnn) s = .next t ∧ t.pc.toNat = nnn.toNat ∧ t.sp.val = s.sp.val + 1 ∧
      (∀ j : Fin 16, t.stack[j] = if j.val = s.sp.val then s.pc else s.stack[j]) ∧
      Frame { parts := [.pc, .stack] } s t := by
  refine ⟨_, execCall_of_room nnn s hsp, absoluteAddr_toNat nnn, rfl, fun j => ?_, ((Frame.refl s).setStack _ _).setPc _⟩
  change (s.stack.set s.sp.val s.pc hsp)[j.val] = if j.val = s.sp.val then s.pc else s.stack[j.val]
  rw [Vector.getElem_set]
  simp only [eq_comm]

/-- With an entry on the stack, return takes the newest one and lowers `sp` to its slot (R25, R100). -/
theorem exec_ret_of_entry (j : Fin 16) (hsp : s.sp.val = j.val + 1) :
    ∃ t, exec .ret s = .next t ∧ t.pc = s.stack[j] ∧ t.sp.val = j.val ∧ t.stack = s.stack ∧
      Frame { parts := [.pc, .stack] } s t := by
  have hj : s.sp.val - 1 = j.val := by omega
  refine ⟨_, execRet_of_entry s (by omega), ?_, hj, rfl, ((Frame.refl s).setStack _ _).setPc _⟩
  simp [hj]

/-- A frame of pieces of state holds with more of them. -/
theorem Frame.mono_parts (h : Frame { parts := ps } s t) (hps : ps ⊆ qs) : Frame { parts := qs } s t :=
  h.mono (List.Subset.refl _) hps fun _ ha hlt => ⟨ha, hlt⟩

/-- A step whose instruction changes only pieces of state that are not the run state ends in Running, and adds the changes of
the resume and of the advance (R80, R82). -/
theorem step_of_exec (hact : s.Active) (hi : s.nextInstr = some i) (hx : exec i s.resume.advance = .next t)
    (hframe : Frame { parts := ps } s.resume.advance t) (hrun : Part.run ∉ ps) :
    step s = .next t ∧ t.runState = .running ∧ Frame { parts := [.pc, .run] ++ ps } s t := by
  have stages : Frame { parts := [.pc, .run] } s s.resume.advance := ((Frame.refl s).setRun _).setPc _
  exact ⟨(step_eq_exec hact hi).trans hx, hframe.run hrun,
    (stages.mono_parts (List.subset_append_left _ _)).trans (hframe.mono_parts (List.subset_append_right _ _))⟩

/-- The word at an address depends on the parameters and the memory alone (R44). -/
theorem State.fetchWord_congr (hcfg : t.cfg = s.cfg) (hmem : t.mem = s.mem) (a : Nat) : t.fetchWord a = s.fetchWord a := by
  simp only [State.fetchWord, hcfg, hmem]

end ControlTransfer

end Sys2Proof.Machine
end

section
/-! PROOFS. The statements about control transfer (41_control_flow.md). -/

namespace Sys2Proof.Proofs

open Sys2Proof.Machine

/-- Settles O33: call pushes the advanced `pc` and keeps memory, so that the second step fetches the return, which takes the
pushed slot off again. -/
theorem callThenReturnRestoresPc : Obligations.CallThenReturnRestoresPc := by
  intro s nnn hact hsp hi hword
  obtain ⟨t, hcall, htpc, htsp, hpushed, hcallFrame⟩ := exec_call_of_room (s := s.resume.advance) nnn hsp
  obtain ⟨hstep, hrun, hframe⟩ := step_of_exec hact hi hcall hcallFrame (by decide)
  have hfetched : t.fetched = some 0x00EE := by
    rw [State.fetched, htpc, State.fetchWord_congr hframe.cfg (hframe.mem rfl), hword]
  have hnext : t.nextInstr = some .ret := State.nextInstr_of_ok hfetched (decodeWord_encode .ret)
  obtain ⟨u, hret, hupc, husp, hkept, hretFrame⟩ := exec_ret_of_entry (s := t.resume.advance) ⟨s.sp.val, hsp⟩ htsp
  obtain ⟨hstep', hrun', hframe'⟩ := step_of_exec (.inl hrun) hnext hret hretFrame (by decide)
  refine ⟨t, u, hstep, hstep', ?_, Fin.ext husp, hrun', fun j => ?_,
    ((hframe.trans hframe').mono_parts (by decide)).toKeeps⟩
  · exact hupc.trans ((hpushed _).trans (if_pos rfl))
  · rw [hkept]
    exact hpushed j

/-- Settles O27. -/
theorem jumpTakesItsTarget : Obligations.JumpTakesItsTarget := fun s nnn =>
  ⟨wordNNN_toNat 0x1 nnn, _, rfl, absoluteAddr_toNat nnn, s.setPc_keeps _⟩

/-- Settles O28. -/
theorem jumpWithOffsetAddsV0 : Obligations.JumpWithOffsetAddsV0 := fun s nnn =>
  ⟨_, rfl, absoluteAddr_add_wideReg_toNat nnn s 0, s.setPc_keeps _⟩

/-- Settles O29: a skip on the comparison of a register with the byte. -/
theorem byteSkips : Obligations.ByteSkips := fun s x kk =>
  ⟨wordXKK_toNat 0x3 x kk, wordXKK_toNat 0x4 x kk,
    ⟨_, rfl, s.skipIf_beq_pc (s.reg x) kk, s.skipIf_keeps _⟩,
    ⟨_, rfl, s.skipIf_bne_pc (s.reg x) kk, s.skipIf_keeps _⟩⟩

/-- Settles O30: a skip on the comparison of two registers. -/
theorem registerSkips : Obligations.RegisterSkips := fun s x y =>
  ⟨wordXYN_toNat 0x5 x y 0, wordXYN_toNat 0x9 x y 0,
    ⟨_, rfl, s.skipIf_beq_pc (s.reg x) (s.reg y), s.skipIf_keeps _⟩,
    ⟨_, rfl, s.skipIf_bne_pc (s.reg x) (s.reg y), s.skipIf_keeps _⟩⟩

/-- Settles O31. -/
theorem callPushesAdvancedPc : Obligations.CallPushesAdvancedPc := by
  intro s nnn hsp
  obtain ⟨t, hx, hpc, htsp, hstack, hframe⟩ := exec_call_of_room nnn hsp
  exact ⟨t, hx, hpc, htsp, hstack, hframe.toKeeps⟩

/-- Settles O32. -/
theorem returnPopsNewestAddress : Obligations.ReturnPopsNewestAddress := by
  intro s j hsp
  obtain ⟨t, hx, hpc, htsp, hstack, hframe⟩ := exec_ret_of_entry j hsp
  exact ⟨t, hx, hpc, htsp, hstack, hframe.toKeeps⟩

end Sys2Proof.Proofs
end

section
/-! PROOFS. What the register and arithmetic instructions compute: the flags and the results as numbers, the two writes of an
operation with a flag, and the write that sub and subn share. -/

namespace Sys2Proof.Machine

/-! ## Flags and results as numbers -/

theorem flagByte_toNat (c : Bool) : (flagByte c).toNat = c.toNat := by
  cases c
  · rfl
  · rfl

theorem carryFlag_eq (a b : Byte) : carryFlag a b = if 256 ≤ a.toNat + b.toNat then 1 else 0 := by
  simp only [carryFlag, flagByte, decide_eq_true_eq]

theorem greaterFlag_eq (a b : Byte) : greaterFlag a b = if b.toNat < a.toNat then 1 else 0 := by
  simp only [greaterFlag, flagByte, decide_eq_true_eq]

/-- The bit that shift-right loses (R128). -/
theorem lowBitFlag_toNat (a : Byte) : (lowBitFlag a).toNat = a.toNat % 2 := by
  rw [lowBitFlag, flagByte_toNat, BitVec.getLsbD, Nat.toNat_testBit, Nat.pow_zero, Nat.div_one]

/-- The bit that shift-left loses (R130). -/
theorem highBitFlag_toNat (a : Byte) : (highBitFlag a).toNat = a.toNat / 128 := by
  have := a.isLt
  rw [highBitFlag, flagByte_toNat, BitVec.getLsbD, Nat.toNat_testBit]
  omega

theorem byte_sub_toNat (a b : Byte) : (a - b).toNat = (256 + a.toNat - b.toNat) % 256 := by
  have := b.isLt
  rw [BitVec.toNat_sub]
  omega

theorem byte_shiftRight_toNat (a : Byte) : (a >>> 1).toNat = a.toNat / 2 := by
  rw [BitVec.toNat_ushiftRight, Nat.shiftRight_one]

theorem byte_shiftLeft_toNat (a : Byte) : (a <<< 1).toNat = a.toNat * 2 % 256 := by
  rw [BitVec.toNat_shiftLeft, Nat.shiftLeft_eq, Nat.pow_one]

section RegisterWrites

variable {s t : State} {x : RegIdx} {a b : Byte}

/-! ## One write, and a result with its flag -/

theorem State.setReg_keeps (s : State) (r : RegIdx) (b : Byte) : Keeps { regs := [r] } s (s.setReg r b) :=
  ((Frame.refl s).setReg r b).toKeeps

/-- A frame of registers holds with more of them. -/
theorem Frame.mono_regs {rs qs : List RegIdx} (h : Frame { regs := rs } s t) (hrs : rs ⊆ qs) : Frame { regs := qs } s t :=
  h.mono hrs (List.Subset.refl _) fun _ ha hlt => ⟨ha, hlt⟩

/-- Of two writes to different registers, the second leaves the first. -/
theorem State.reg_setReg_setReg_ne {q r : RegIdx} (h : q ≠ r) : ((s.setReg q a).setReg r b).reg q = a :=
  (State.reg_setReg_ne _ r q b h).trans (State.reg_setReg_same s q a)

/-- The flag, then the result: the order of the subtractions and the shifts (R133). -/
theorem setFlag_setReg_frame (s : State) (x : RegIdx) (f b : Byte) :
    Frame { regs := [x, flagReg] } s ((s.setReg flagReg f).setReg x b) :=
  ((Frame.refl s).setReg flagReg f).setReg x b

/-- A frame of the destination and the flag, where the destination is the flag (R133). -/
theorem Frame.keeps_flagReg (h : Frame { regs := [flagReg, flagReg] } s t) : Keeps { regs := [flagReg] } s t :=
  (h.mono_regs (by decide)).toKeeps

/-! ## The write that sub and subn share (R127, R129) -/

theorem State.reg_subtractInto_of_stored (h : b.toNat < a.toNat ∨ s.cfg.subPolicy = .wrap) :
    (s.subtractInto x a b).reg x = a - b := by
  rw [State.subtractInto_of_stored s x a b h, State.reg_setReg_same]

theorem State.reg_subtractInto_flag (hx : x ≠ flagReg) :
    (s.subtractInto x a b).reg flagReg = if b.toNat < a.toNat then 1 else 0 := by
  rw [← greaterFlag_eq]
  by_cases h : b.toNat < a.toNat ∨ s.cfg.subPolicy = .wrap
  · rw [State.subtractInto_of_stored s x a b h, State.reg_setReg_setReg_ne hx.symm]
  · rw [State.subtractInto_of_kept s x a b h, State.reg_setReg_same]

theorem State.reg_subtractInto_of_greater (h : b.toNat < a.toNat) :
    ((s.subtractInto x a b).reg x).toNat = a.toNat - b.toNat := by
  rw [State.reg_subtractInto_of_stored (.inl h)]
  exact BitVec.toNat_sub_of_le h.le

theorem State.reg_subtractInto_of_wrap (hwrap : s.cfg.subPolicy = .wrap) :
    ((s.subtractInto x a b).reg x).toNat = (256 + a.toNat - b.toNat) % 256 := by
  rw [State.reg_subtractInto_of_stored (.inr hwrap), byte_sub_toNat]

theorem State.reg_subtractInto_of_keep (hx : x ≠ flagReg) (hle : a.toNat ≤ b.toNat) (hkeep : s.cfg.subPolicy = .keep) :
    (s.subtractInto x a b).reg x = s.reg x := by
  have hkept : ¬ (b.toNat < a.toNat ∨ s.cfg.subPolicy = .wrap) := by simp [hkeep, hle]
  rw [State.subtractInto_of_kept s x a b hkept, State.reg_setReg_ne _ _ _ _ hx]

/-- In `VF` the difference overwrites the flag; where none is stored the flag remains, and it is 0 (R133). -/
theorem State.reg_subtractInto_flagReg :
    ((s.subtractInto flagReg a b).reg flagReg).toNat =
      if b.toNat < a.toNat ∨ s.cfg.subPolicy = .wrap then (256 + a.toNat - b.toNat) % 256 else 0 := by
  split
  case isTrue h => rw [State.reg_subtractInto_of_stored h, byte_sub_toNat]
  case isFalse h =>
    rw [State.subtractInto_of_kept s flagReg a b h, State.reg_setReg_same, greaterFlag_eq, if_neg (mt .inl h)]
    rfl

end RegisterWrites

end Sys2Proof.Machine
end

section
/-! PROOFS. The statements about register, arithmetic, logic, shift and random instructions (42_alu.md). -/

namespace Sys2Proof.Proofs

open Sys2Proof.Machine

/-- Settles O22: both operations are the one shared write, with the operands exchanged. -/
theorem subtractionsUnderBothPolicies : Obligations.SubtractionsUnderBothPolicies := fun s x y hx =>
  ⟨⟨_, rfl, (subtractInto_frame s x (s.reg x) (s.reg y)).toKeeps, State.reg_subtractInto_flag hx,
      State.reg_subtractInto_of_greater, State.reg_subtractInto_of_keep hx, fun _ => State.reg_subtractInto_of_wrap⟩,
    ⟨_, rfl, (subtractInto_frame s x (s.reg y) (s.reg x)).toKeeps, State.reg_subtractInto_flag hx,
      State.reg_subtractInto_of_greater, State.reg_subtractInto_of_keep hx, fun _ => State.reg_subtractInto_of_wrap⟩⟩

/-- Settles O18: each is one register write. -/
theorem registerLoads : Obligations.RegisterLoads := fun s x y kk =>
  ⟨wordXKK_toNat 0x6 x kk, wordXYN_toNat 0x8 x y 0, (wordXKK_toNat 0xF x 0x07).trans (Nat.add_right_comm _ _ _),
    ⟨_, rfl, s.reg_setReg_same x kk, s.setReg_keeps x kk⟩,
    ⟨_, rfl, s.reg_setReg_same x (s.reg y), s.setReg_keeps x (s.reg y)⟩,
    ⟨_, rfl, s.reg_setReg_same x s.dt, s.setReg_keeps x s.dt⟩⟩

/-- Settles O19: one register write, of a sum of bytes. -/
theorem addImmediateWrapsWithoutFlag : Obligations.AddImmediateWrapsWithoutFlag := by
  intro s x kk
  refine ⟨wordXKK_toNat 0x7 x kk, _, rfl, ?_, s.setReg_keeps x _⟩
  rw [State.reg_setReg_same, BitVec.toNat_add]

/-- Settles O20: each is one register write, and the bits of the combined byte are the combined bits. -/
theorem logicBitByBit : Obligations.LogicBitByBit := by
  intro s x y
  refine ⟨⟨_, rfl, s.setReg_keeps x _, fun k => ?_⟩, ⟨_, rfl, s.setReg_keeps x _, fun k => ?_⟩,
    ⟨_, rfl, s.setReg_keeps x _, fun k => ?_⟩⟩
  · rw [State.reg_setReg_same, BitVec.getLsbD_or]
  · rw [State.reg_setReg_same, BitVec.getLsbD_and]
  · rw [State.reg_setReg_same, BitVec.getLsbD_xor]

/-- Settles O21: the carry is the later write, so it remains for every `x`, and the sum where `x` is not `VF`. -/
theorem addRegSumAndCarry : Obligations.AddRegSumAndCarry := by
  intro s x y
  have frame : Frame { regs := [flagReg, x] } s _ :=
    ((Frame.refl s).setReg x (s.reg x + s.reg y)).setReg flagReg (carryFlag (s.reg x) (s.reg y))
  refine ⟨_, rfl, (frame.mono_regs (List.Perm.swap x flagReg []).subset).toKeeps, ?_, fun hx => ?_⟩
  · rw [State.reg_setReg_same, carryFlag_eq]
  · rw [State.reg_setReg_setReg_ne hx, BitVec.toNat_add]

/-- Settles O23: the result goes to a register other than `VF`, so the flag written before it remains. -/
theorem shiftsByOneBit : Obligations.ShiftsByOneBit := by
  intro s x y hx
  refine ⟨⟨_, rfl, (setFlag_setReg_frame s x _ _).toKeeps, ?_, ?_⟩,
    ⟨_, rfl, (setFlag_setReg_frame s x _ _).toKeeps, ?_, ?_⟩⟩
  · rw [State.reg_setReg_same, byte_shiftRight_toNat]
  · rw [State.reg_setReg_setReg_ne hx.symm, lowBitFlag_toNat]
  · rw [State.reg_setReg_same, byte_shiftLeft_toNat]
  · rw [State.reg_setReg_setReg_ne hx.symm, highBitFlag_toNat]

/-- Settles O24: the result is the later write. -/
theorem flagRegisterAsDestination : Obligations.FlagRegisterAsDestination := by
  intro s y
  refine ⟨⟨_, rfl, (subtractInto_frame s flagReg _ _).keeps_flagReg, State.reg_subtractInto_flagReg⟩,
    ⟨_, rfl, (subtractInto_frame s flagReg _ _).keeps_flagReg, State.reg_subtractInto_flagReg⟩,
    ⟨_, rfl, (setFlag_setReg_frame s flagReg _ _).keeps_flagReg, ?_⟩,
    ⟨_, rfl, (setFlag_setReg_frame s flagReg _ _).keeps_flagReg, ?_⟩⟩
  · rw [State.reg_setReg_same, byte_shiftRight_toNat]
  · rw [State.reg_setReg_same, byte_shiftLeft_toNat]

/-- Settles O25: the write after the draw masks the answer, so no bit outside the mask is set. -/
theorem randomAndMasksTheAnswer : Obligations.RandomAndMasksTheAnswer := by
  rintro s x kk r rfl
  have hx := s.randomAsked.reg_setReg_same x (s.randomAnswer &&& kk)
  have frame : Frame { regs := [x], parts := [.env] } s _ :=
    ((Frame.refl s).setEnv s.randomAsked.env).setReg x (s.randomAnswer &&& kk)
  refine ⟨_, rfl, hx, ?_, frame.toKeeps⟩
  rw [hx, BitVec.and_assoc, BitVec.and_not_self]
  exact BitVec.and_zero

end Sys2Proof.Proofs
end

section
/-! PROOFS. What the index register and memory instructions do: the new `I` as a number, the bytes of a block store and of a
block read one by one, and the fault that replaces them when the block leaves memory. -/

namespace Sys2Proof.Machine

section IndexMemory

variable {s t : State} {i : Instr} {kind : FaultKind}

/-- An execution that raises a fault answers the faulted state of R185. -/
theorem exec_faultsWith (h : exec i s = raiseFault kind i s) : ∃ t, exec i s = .next t ∧ FaultsWith kind i s t :=
  h ▸ raiseFault_faultsWith kind i s

/-! ## The index register -/

theorem State.setIndex_keeps (s : State) (a : Word) : Keeps { parts := [.index] } s (s.setIndex a) :=
  ((Frame.refl s).setIndex a).toKeeps

/-- The font lies below 0x200, so that the 16 bits hold the address of every glyph (R5, R36). -/
theorem glyphAddr_toNat {cfg : Config} (hcfg : cfg.wf) (d : Key) :
    (glyphAddr cfg d).toNat = cfg.fontBase.toNat + 5 * d.val := by
  have hfont : cfg.fontBase.toNat + 80 ≤ 0x200 := hcfg.1
  rw [glyphAddr, BitVec.toNat_add, BitVec.toNat_ofNat]
  omega

/-! ## Block stores -/

/-- A byte of a stored block is read back at its address. -/
theorem State.memRead_storeBytes {base k : Nat} {bs : List Byte} {b : Byte} (hin : base + bs.length ≤ 4096)
    (hk : bs[k]? = some b) : (s.setMem (Memory.writeBytes s.cfg s.mem base bs)).memRead (base + k) = some b := by
  have hstore := (State.writeBlock_eq_some s _ base bs).mpr ⟨.inr hin, rfl⟩
  rw [State.memRead_of_writeBlock hstore (List.getElem?_eq_some_iff.mp hk).1, List.getD_eq_getElem?_getD, hk,
    Option.getD_some]

/-- Inside memory, bcd-store puts the digits at `I`, `I + 1` and `I + 2` (R143). -/
theorem exec_bcdStore_of_inRange (x : RegIdx) (hin : s.index.toNat + 2 ≤ 0xFFF) :
    ∃ t, exec (.bcdStore x) s = .next t ∧
      (∀ k b, (bcdDigits (s.reg x))[k]? = some b → t.memRead (s.index.toNat + k) = some b) ∧
      Frame { storeBase := s.index.toNat, storeLen := 3 } s t := by
  have hin' : s.index.toNat + 3 ≤ 4096 := by omega
  exact ⟨_, execBcdStore_of_inRange x s hin', fun _ _ hk => State.memRead_storeBytes hin' hk,
    Frame.storeBytes s rfl hin'⟩

/-- Inside memory, reg-dump stores `Vk` at `I + k` (R144). -/
theorem exec_regDump_of_inRange (x : RegIdx) (hin : s.index.toNat + x.val ≤ 0xFFF) :
    ∃ t, exec (.regDump x) s = .next t ∧
      (∀ k : RegIdx, k ≤ x → t.memRead (s.index.toNat + k.val) = some (s.reg k)) ∧
      Frame { storeBase := s.index.toNat, storeLen := x.val + 1 } s t := by
  have hlen := regsUpTo_length s x
  have hin' : s.index.toNat + (x.val + 1) ≤ 4096 := by omega
  exact ⟨_, execRegDump_of_inRange x s hin',
    fun k hk => State.memRead_storeBytes (hlen ▸ hin') (regsUpTo_getElem? s x k hk), Frame.storeBytes s hlen hin'⟩

/-! ## Block reads -/

/-- Registers that got the values they had need not be in the frame. -/
theorem Frame.of_regs_eq {rs : List RegIdx} (h : Frame { regs := rs } s t) (hregs : ∀ r, t.reg r = s.reg r) :
    Frame {} s t :=
  { h with regs := fun r _ => hregs r }

/-- A frame of nothing holds with any block of memory. -/
theorem Frame.withStore (h : Frame {} s t) (base len : Nat) : Frame { storeBase := base, storeLen := len } s t :=
  h.mono (List.Subset.refl _) (List.Subset.refl _) fun _ ha hlt => absurd ha (Nat.not_le_of_lt hlt)

/-- Inside memory, reg-load fills `Vk` from `I + k` for `k` up to `x` (R145). -/
theorem exec_regLoad_of_inRange (x : RegIdx) (hin : s.index.toNat + x.val ≤ 0xFFF) :
    ∃ t, exec (.regLoad x) s = .next t ∧
      (∀ k : RegIdx, k ≤ x → s.memRead (s.index.toNat + k.val) = some (t.reg k)) ∧
      (∀ k : RegIdx, x < k → t.reg k = s.reg k) ∧
      Frame { regs := (List.finRange 16).filter fun k => k ≤ x } s t := by
  have hx := execRegLoad_of_inRange x s (by omega)
  have frame : Frame { regs := (List.finRange 16).filter fun r => r.val < x.val + 1 } s _ :=
    (Frame.refl s).setRegs (bytesAtIndex_length s (x.val + 1))
  refine ⟨_, hx, fun k hk => ?_, fun k hk => exec_reg_unchanged (i := .regLoad x) hx (not_le_of_gt hk),
    frame.mono_regs (List.monotone_filter_right _ fun k hk => ?_).subset⟩
  · have hk' : k.val < x.val + 1 := Nat.lt_succ_of_le hk
    rw [State.reg_setRegs, bytesAtIndex_getElem? s _ _ hk', Option.getD_some, State.memRead_eq_some]
    exact ⟨by simp only [memSize_eq]; omega, rfl⟩
  · exact decide_eq_true (Nat.le_of_lt_succ (of_decide_eq_true hk))

end IndexMemory

end Sys2Proof.Machine
end

section
/-! PROOFS. The statements about the index register and memory instructions (43_index_memory.md). -/

namespace Sys2Proof.Proofs

open Sys2Proof.Machine

/-- Settles O34. -/
theorem loadIndexTakesTheAddress : Obligations.LoadIndexTakesTheAddress := fun s nnn =>
  ⟨wordNNN_toNat 0xA nnn, _, rfl, absoluteAddr_toNat nnn, s.setIndex_keeps _⟩

/-- Settles O35: one write of a sum of 16-bit numbers. -/
theorem addIndexWrapsAtSixteenBits : Obligations.AddIndexWrapsAtSixteenBits := by
  intro s x
  refine ⟨_, rfl, ?_, s.setIndex_keeps _⟩
  rw [State.setIndex_index, BitVec.toNat_add, wideReg_toNat]

/-- Settles O36, on either side of the largest digit. -/
theorem spriteAddressOfADigit : Obligations.SpriteAddressOfADigit := by
  intro s x hcfg
  refine ⟨fun hdigit => ?_, fun hlarge => exec_faultsWith (execSpriteAddress_of_large x s hlarge)⟩
  have hd : (s.reg x).toNat < 16 := Nat.lt_succ_of_le hdigit
  exact ⟨_, execSpriteAddress_of_digit x s ⟨_, hd⟩ rfl, glyphAddr_toNat hcfg _, s.setIndex_keeps _⟩

/-- Settles O37: the block is the three digits, read back one by one. -/
theorem bcdStoreWritesThreeDigits : Obligations.BcdStoreWritesThreeDigits := by
  intro s x
  refine ⟨fun hin => ?_, fun hout => exec_faultsWith (execBcdStore_of_outOfRange x s (by omega))⟩
  obtain ⟨t, hx, hdigits, hframe⟩ := exec_bcdStore_of_inRange x hin
  have hbyte := (s.reg x).isLt
  exact ⟨t, _, _, _, hx, hdigits 0 _ rfl, hdigits 1 _ rfl, hdigits 2 _ rfl, Nat.mod_eq_of_lt (by omega),
    Nat.mod_eq_of_lt (by omega), Nat.mod_eq_of_lt (by omega), hframe.toKeeps⟩

/-- Settles O38: the stored block and its frame, or the fault. -/
theorem regDumpStoresRegisters : Obligations.RegDumpStoresRegisters := by
  intro s x
  refine ⟨fun hin => ?_, fun hout => exec_faultsWith (execRegDump_of_outOfRange x s (by omega))⟩
  obtain ⟨t, hx, hbytes, hframe⟩ := exec_regDump_of_inRange x hin
  exact ⟨t, hx, hbytes, hframe.toKeeps⟩

/-- Settles O39: the loaded registers and their frame, or the fault. -/
theorem regLoadLoadsRegisters : Obligations.RegLoadLoadsRegisters := by
  intro s x
  refine ⟨fun hin => ?_, fun hout => exec_faultsWith (execRegLoad_of_outOfRange x s (by omega))⟩
  obtain ⟨t, hx, hloaded, habove, hframe⟩ := exec_regLoad_of_inRange x hin
  exact ⟨t, hx, hloaded, habove, hframe.toKeeps⟩

/-- Settles O40: the load starts from the same `I`, so it finds `Vk` where the dump stored it; registers above `x` take
part in neither. -/
theorem regDumpThenRegLoadKeepsRegisters : Obligations.RegDumpThenRegLoadKeepsRegisters := by
  intro s x hin
  obtain ⟨t, hdump, hstored, hdumpFrame⟩ := exec_regDump_of_inRange x hin
  have hindex : t.index = s.index := hdumpFrame.index List.not_mem_nil
  obtain ⟨u, hload, hloaded, habove, hloadFrame⟩ := exec_regLoad_of_inRange (s := t) x (hindex ▸ hin)
  have hdumpRegs : ∀ k, t.reg k = s.reg k := fun k => hdumpFrame.regs k List.not_mem_nil
  have hloadRegs : ∀ k, u.reg k = t.reg k := by
    intro k
    rcases le_or_gt k x with hk | hk
    · have hfound : some (u.reg k) = some (s.reg k) := (hindex ▸ hloaded k hk).symm.trans (hstored k hk)
      rw [Option.some.inj hfound, hdumpRegs]
    · exact habove k hk
  exact ⟨t, u, hdump, hload, fun k => (hloadRegs k).trans (hdumpRegs k),
    (hdumpFrame.trans ((hloadFrame.of_regs_eq hloadRegs).withStore _ _)).toKeeps⟩

end Sys2Proof.Proofs
end

section
/-! PROOFS. What a draw does to the cells and to `VF`, in the terms of the cells that its sprite covers, and two draws of one
sprite after each other; then the skip on an answer of the keypad, and the sound flag. -/

namespace Sys2Proof.Machine

theorem flagByte_eq_one (c : Bool) : flagByte c = 1 ↔ c = true := by
  cases c
  · exact iff_of_false (by decide) (by decide)
  · exact iff_of_true rfl rfl

theorem flagByte_eq_zero (c : Bool) : flagByte c = 0 ↔ c = false := by
  cases c
  · exact iff_of_true rfl rfl
  · exact iff_of_false (by decide) (by decide)

theorem keyByte_toNat (k : Key) : (keyByte k).toNat = k.val := by
  have := k.isLt
  rw [keyByte, BitVec.toNat_ofNat]
  omega

section DisplayInput

variable {s t u : State} {x y : RegIdx} {n : Fin 16}

/-! ## The cells of a sprite in memory -/

/-- The range check of a block in the words of R161: nothing is read, or the last byte lies in memory. -/
theorem blockInRange_iff {base len : Nat} : blockInRange base len ↔ len = 0 ∨ base + len - 1 ≤ 0xFFF := by
  rw [blockInRange, memSize_eq]
  omega

/-- The rows of a sprite inside memory are the bytes from `I` on. -/
theorem bytesAtIndex_getElem?_eq_some {len r : Nat} {row : Byte} (hin : blockInRange s.index.toNat len) :
    (bytesAtIndex s len)[r]? = some row ↔ r < len ∧ s.memRead (s.index.toNat + r) = some row := by
  rw [State.memRead_eq_some]
  by_cases hr : r < len
  · have hmem : s.index.toNat + r < Config.memSize := by omega
    simp [bytesAtIndex_getElem? s len r hr, hr, hmem]
  · simp [bytesAtIndex, hr]

/-- The cells that a draw inverts are the cells that its sprite covers (R161, R193). -/
theorem mem_spritePixels_bytesAtIndex {len : Nat} (hin : blockInRange s.index.toNat len) (p : Pixel) :
    p ∈ spritePixels s.cfg (s.reg x).toNat (s.reg y).toNat (bytesAtIndex s len) ↔ SpriteCovers s x y len p := by
  simp only [mem_spritePixels, bytesAtIndex_getElem?_eq_some hin, SpriteCovers]
  constructor
  · rintro ⟨r, j, row, ⟨hr, hrow⟩, hj, hbit, hp⟩
    exact ⟨r, j, row, hr, hj, hrow, hbit, hp⟩
  · rintro ⟨r, j, row, hr, hj, hrow, hbit, hp⟩
    exact ⟨r, j, row, ⟨hr, hrow⟩, hj, hbit, hp⟩

/-! ## One draw -/

/-- `t` is the machine `s` after a draw of `n` rows at (`Vx`, `Vy`) whose rows lie in memory (R161). -/
structure Drawn (x y : RegIdx) (n : Fin 16) (s t : State) : Prop where
  frame : Frame { regs := [flagReg], parts := [.display] } s t
  covered : ∀ p, SpriteCovers s x y n.val p → Display.isOn t.display p = !Display.isOn s.display p
  uncovered : ∀ p, ¬ SpriteCovers s x y n.val p → Display.isOn t.display p = Display.isOn s.display p
  flag_eq_one : t.reg flagReg = 1 ↔ ∃ p, SpriteCovers s x y n.val p ∧ Display.isOn s.display p = true
  flag_eq_zero : t.reg flagReg = 0 ↔ ¬ ∃ p, SpriteCovers s x y n.val p ∧ Display.isOn s.display p = true
  displayWf : Display.wf s.cfg s.display → Display.wf t.cfg t.display

/-- On a legal display the at most 15 rows land on different cells, so that each covered cell is inverted once. -/
theorem exec_draw_of_inRange (x y : RegIdx) (hcfg : s.cfg.wf) (hin : blockInRange s.index.toNat n.val) :
    ∃ t, exec (.draw x y n) s = .next t ∧ Drawn x y n s t := by
  obtain ⟨-, hwide, htall, -⟩ := hcfg
  have hcovers := mem_spritePixels_bytesAtIndex (x := x) (y := y) hin
  have hnodup := spritePixels_nodup s.cfg (s.reg x).toNat (s.reg y).toNat (bytesAtIndex s n.val) hwide
    (by rw [bytesAtIndex_length]; omega)
  have hcollision :
      (Display.xorSprite s.cfg s.display (s.reg x).toNat (s.reg y).toNat (bytesAtIndex s n.val)).2 = true ↔
        ∃ p, SpriteCovers s x y n.val p ∧ Display.isOn s.display p = true := by
    simp only [Display.xorSprite, Display.collision_xorPixels _ _ hnodup, List.any_eq_true, hcovers]
  refine ⟨_, execDraw_of_inRange x y n s hin, ((Frame.refl s).setDisplay _).setReg flagReg _, fun p hp => ?_,
    fun p hp => ?_, ?_, ?_, fun hwf => ?_⟩
  · exact (Display.isOn_xorPixels _ _ p hnodup).trans (if_pos ((hcovers p).mpr hp))
  · exact Display.isOn_xorPixels_of_notMem _ _ p (mt (hcovers p).mp hp)
  · rw [State.reg_setReg_same, collisionFlag, flagByte_eq_one, hcollision]
  · rw [State.reg_setReg_same, collisionFlag, flagByte_eq_zero, ← Bool.not_eq_true, hcollision]
  · exact Display.wf_xorPixels _ _ _ hwf (spritePixels_inGrid _ _ _ _ (by omega) (by omega))

/-! ## A second draw of the same sprite -/

/-- A draw keeps `I`, memory and the coordinates that are not in `VF`, and so the cells that the sprite covers. -/
theorem Drawn.covers_iff (h : Drawn x y n s t) (hx : x ≠ flagReg) (hy : y ≠ flagReg) (p : Pixel) :
    SpriteCovers t x y n.val p ↔ SpriteCovers s x y n.val p := by
  have hmem : ∀ a, t.memRead a = s.memRead a := fun a => h.frame.memory a fun ⟨_, hlt⟩ => Nat.not_lt_zero a hlt
  simp only [SpriteCovers, h.frame.cfg, h.frame.index (by decide), h.frame.regs x (by simpa using hx),
    h.frame.regs y (by simpa using hy), hmem]

/-- Inverted twice or never, every cell is as before. -/
theorem Drawn.isOn_twice (h : Drawn x y n s t) (h' : Drawn x y n t u) (hx : x ≠ flagReg) (hy : y ≠ flagReg) (p : Pixel) :
    Display.isOn u.display p = Display.isOn s.display p := by
  have hiff := h.covers_iff hx hy p
  by_cases hp : SpriteCovers s x y n.val p
  · rw [h'.covered p (hiff.mpr hp), h.covered p hp, Bool.not_not]
  · rw [h'.uncovered p (mt hiff.mp hp), h.uncovered p hp]

/-- The second draw meets the cells that the first one lit. -/
theorem Drawn.flag_twice (h : Drawn x y n s t) (h' : Drawn x y n t u) (hx : x ≠ flagReg) (hy : y ≠ flagReg) :
    u.reg flagReg = 1 ↔ ∃ p, SpriteCovers s x y n.val p ∧ Display.isOn s.display p = false := by
  rw [h'.flag_eq_one]
  refine exists_congr fun p => ?_
  rw [h.covers_iff hx hy p]
  exact and_congr_right fun hp => by rw [h.covered p hp, Bool.not_eq_true']

/-! ## The keypad -/

/-- A skip on an answer of the keypad moves `pc` and uses the answer up (R162, R163). -/
theorem State.skipIf_keyDownAsked_keeps (s : State) (taken : Bool) :
    Keeps { parts := [.pc, .env] } s (s.keyDownAsked.skipIf taken) :=
  (((Frame.refl s).setEnv _).skipIf taken).toKeeps

theorem State.skipIf_not_pc (s : State) (held : Bool) :
    (s.skipIf !held).pc = if held = true then s.pc else s.pc + 2 := by
  simp only [State.skipIf_pc, Bool.not_eq_true', ← Bool.not_eq_true, ite_not]

/-! ## The sound flag -/

theorem State.soundActive_eq (s : State) : s.soundActive = decide (s.st ≠ 0) := by
  rw [State.soundActive, Bool.eq_iff_iff, bne_iff_ne, decide_eq_true_iff]

end DisplayInput

end Sys2Proof.Machine
end

section
/-! PROOFS. The statements about display, keypad and timer instructions (44_display_input_timers.md). -/

namespace Sys2Proof.Proofs

open Sys2Proof.Machine

/-- Settles O42: what `Drawn` says of the draw inside memory, or the fault. -/
theorem drawInvertsTheSpritesCells : Obligations.DrawInvertsTheSpritesCells := by
  intro s x y n hcfg
  refine ⟨fun hin => ?_, fun hrows hout => ?_⟩
  · obtain ⟨t, hx, hdrawn⟩ := exec_draw_of_inRange x y hcfg (blockInRange_iff.mpr hin)
    exact ⟨t, hx, hdrawn.frame.toKeeps, hdrawn.covered, hdrawn.uncovered, hdrawn.flag_eq_one.mpr,
      hdrawn.flag_eq_zero.mpr⟩
  · exact exec_faultsWith (execDraw_of_outOfRange x y n s (by rw [blockInRange_iff]; omega))

/-- Settles O44: the second draw covers the same cells, and displays in canonical form with the same lit cells are equal. -/
theorem drawTwiceRestoresTheDisplay : Obligations.DrawTwiceRestoresTheDisplay := by
  intro s x y n hcfg hwf hx hy hin
  have hin' := blockInRange_iff.mpr hin
  obtain ⟨t, hfirst, hdrawn⟩ := exec_draw_of_inRange x y hcfg hin'
  have hindex : t.index = s.index := hdrawn.frame.index (by decide)
  obtain ⟨u, hsecond, hdrawn'⟩ := exec_draw_of_inRange (s := t) x y (hdrawn.frame.cfg ▸ hcfg) (hindex ▸ hin')
  obtain ⟨hordered, -⟩ := hdrawn'.displayWf (hdrawn.displayWf hwf)
  exact ⟨t, u, hfirst, hsecond, Display.eq_of_isOn _ _ hordered hwf.1 (hdrawn.isOn_twice hdrawn' hx hy),
    hdrawn.flag_twice hdrawn' hx hy⟩

/-- Settles O41. -/
theorem clearDisplayTurnsEveryCellOff : Obligations.ClearDisplayTurnsEveryCellOff :=
  ⟨rfl, fun s => ⟨_, rfl, fun _ => rfl, ((Frame.refl s).setDisplay _).toKeeps⟩⟩

/-- Settles O43: an empty block is in range everywhere, and a sprite of no rows leaves the write of the flag alone. -/
theorem drawOfNoRowsClearsTheFlag : Obligations.DrawOfNoRowsClearsTheFlag := fun s x y =>
  ⟨_, execDraw_of_inRange x y 0 s (.inl rfl), State.reg_setReg_same _ _ _, s.setReg_keeps flagReg _⟩

/-- Settles O45, on either side of the largest key. -/
theorem keySkips : Obligations.KeySkips := by
  intro s x
  refine ⟨fun k b hk hb => ?_, fun hlarge => ?_⟩
  · subst hb
    exact ⟨⟨_, execKeyPressed_of_key x s k hk, s.keyDownAsked.skipIf_pc _, s.skipIf_keyDownAsked_keeps _⟩,
      ⟨_, execKeyNotPressed_of_key x s k hk, s.keyDownAsked.skipIf_not_pc _, s.skipIf_keyDownAsked_keeps _⟩⟩
  · exact ⟨exec_faultsWith (execKeyPressed_of_large x s hlarge),
      exec_faultsWith (execKeyNotPressed_of_large x s hlarge)⟩

/-- Settles O46: a register write after the poll, or the way back to the instruction. -/
theorem waitKeyPollsOnce : Obligations.WaitKeyPollsOnce := by
  intro s x
  have polled := (Frame.refl s).setEnv s.keyPressAsked.env
  refine ⟨fun k hk => ⟨_, execWaitKey_of_key x s k hk, ?_, rfl, (polled.setReg x _).toKeeps⟩, fun hnone => ?_⟩
  · rw [State.reg_setReg_same, keyByte_toNat]
  · have frame : Frame { parts := [.run, .pc, .env] } s _ := (polled.setPc s.insnAddr).setRun .awaitingInput
    exact ⟨_, execWaitKey_of_none x s hnone, rfl, rfl, rfl, (frame.mono_parts (by decide)).toKeeps⟩

/-- Settles O47: each is one write of a timer, and the sound flag reads the one that set-sound wrote. -/
theorem timerWrites : Obligations.TimerWrites := fun s x =>
  ⟨⟨_, rfl, rfl, ((Frame.refl s).setDelay (s.reg x)).toKeeps⟩,
    ⟨_, rfl, rfl, State.soundActive_eq _, ((Frame.refl s).setSound (s.reg x)).toKeeps⟩⟩

end Sys2Proof.Proofs
end

section
/-! PROOFS. When an execution faults, said for all instructions by their causes; what a step then leaves in the record; and
the count of a timer. -/

namespace Sys2Proof.Machine

section Exceptions

variable {s t : State} {i : Instr} {kind : FaultKind} {w : Word} {f : FaultRecord}

/-! ## Faults of an execution -/

theorem State.skipIf_fault (s : State) (taken : Bool) : (s.skipIf taken).fault = s.fault := by
  rw [State.skipIf_eq, State.setPc_fault]

/-- An operation has the cause of one kind and raises that fault, or it has none and leaves the record alone (R182, R183,
R184, R187). -/
theorem exec_by_cause (i : Instr) (s : State) :
    (∃ kind, (∀ k, FaultCause i s k ↔ k = kind) ∧ exec i s = raiseFault kind i s) ∨
      (∀ k, ¬ FaultCause i s k) ∧ ∃ t, exec i s = .next t ∧ t.fault = s.fault := by
  cases i with
  | call nnn =>
    by_cases hfull : s.sp.val = 16
    · exact .inl ⟨_, fun _ => and_iff_left hfull, execCall_of_full nnn s hfull⟩
    · exact .inr ⟨fun _ hc => hfull hc.2, _, execCall_of_room nnn s (by omega), rfl⟩
  | ret =>
    by_cases hempty : s.sp.val = 0
    · exact .inl ⟨_, fun _ => and_iff_left hempty, execRet_of_empty s hempty⟩
    · exact .inr ⟨fun _ hc => hempty hc.2, _, execRet_of_entry s (by omega), rfl⟩
  | draw x y n =>
    by_cases hout : 1 ≤ n.val ∧ 0xFFF < s.index.toNat + n.val - 1
    · exact .inl ⟨_, fun _ => and_iff_left hout, execDraw_of_outOfRange x y n s (by rw [blockInRange_iff]; omega)⟩
    · exact .inr ⟨fun _ hc => hout hc.2, _, execDraw_of_inRange x y n s (by rw [blockInRange_iff]; omega), rfl⟩
  | bcdStore x =>
    by_cases hout : 0xFFF < s.index.toNat + 2
    · exact .inl ⟨_, fun _ => and_iff_left hout, execBcdStore_of_outOfRange x s (by omega)⟩
    · exact .inr ⟨fun _ hc => hout hc.2, _, execBcdStore_of_inRange x s (by omega), rfl⟩
  | regDump x =>
    by_cases hout : 0xFFF < s.index.toNat + x.val
    · exact .inl ⟨_, fun _ => and_iff_left hout, execRegDump_of_outOfRange x s (by omega)⟩
    · exact .inr ⟨fun _ hc => hout hc.2, _, execRegDump_of_inRange x s (by omega), rfl⟩
  | regLoad x =>
    by_cases hout : 0xFFF < s.index.toNat + x.val
    · exact .inl ⟨_, fun _ => and_iff_left hout, execRegLoad_of_outOfRange x s (by omega)⟩
    · exact .inr ⟨fun _ hc => hout hc.2, _, execRegLoad_of_inRange x s (by omega), rfl⟩
  | spriteAddress x =>
    by_cases hlarge : 15 < (s.reg x).toNat
    · exact .inl ⟨_, fun _ => and_iff_left hlarge, execSpriteAddress_of_large x s hlarge⟩
    · exact .inr ⟨fun _ hc => hlarge hc.2, _, execSpriteAddress_of_digit x s ⟨_, Nat.lt_of_not_le hlarge⟩ rfl, rfl⟩
  | keyPressed x =>
    by_cases hlarge : 15 < (s.reg x).toNat
    · exact .inl ⟨_, fun _ => and_iff_left hlarge, execKeyPressed_of_large x s hlarge⟩
    · exact .inr ⟨fun _ hc => hlarge hc.2, _, execKeyPressed_of_key x s ⟨_, Nat.lt_of_not_le hlarge⟩ rfl,
        State.skipIf_fault s.keyDownAsked _⟩
  | keyNotPressed x =>
    by_cases hlarge : 15 < (s.reg x).toNat
    · exact .inl ⟨_, fun _ => and_iff_left hlarge, execKeyNotPressed_of_large x s hlarge⟩
    · exact .inr ⟨fun _ hc => hlarge hc.2, _, execKeyNotPressed_of_key x s ⟨_, Nat.lt_of_not_le hlarge⟩ rfl,
        State.skipIf_fault s.keyDownAsked _⟩
  | waitKey x =>
    refine .inr ⟨fun _ => id, ?_⟩
    cases hk : s.keyPressAnswer with
    | some k => exact ⟨_, execWaitKey_of_key x s k hk, rfl⟩
    | none => exact ⟨_, execWaitKey_of_none x s hk, rfl⟩
  | skipEqByte x kk | skipNeByte x kk | skipEqReg x y | skipNeReg x y =>
    exact .inr ⟨fun _ => id, _, rfl, State.skipIf_fault s _⟩
  | sub x y | subn x y => exact .inr ⟨fun _ => id, _, rfl, (subtractInto_frame s x _ _).fault List.not_mem_nil⟩
  | _ => exact .inr ⟨fun _ => id, _, rfl, rfl⟩

theorem exec_of_faultCause (h : FaultCause i s kind) : exec i s = raiseFault kind i s := by
  rcases exec_by_cause i s with ⟨k, hk, hx⟩ | ⟨hnone, -⟩
  · rwa [(hk kind).mp h]
  · exact absurd h (hnone kind)

/-- Without a cause the operation completes and leaves the record alone (R187). -/
theorem exec_of_no_faultCause (hcause : ∀ k, ¬ FaultCause i s k) : ∃ t, exec i s = .next t ∧ t.fault = s.fault := by
  rcases exec_by_cause i s with ⟨k, hk, -⟩ | ⟨-, hx⟩
  · exact absurd ((hk k).mpr rfl) (hcause k)
  · exact hx

/-- A Running machine enters Faulted in an execution only by a raised fault (R185). -/
theorem exec_enters_faulted (hrun : s.runState = .running) (h : exec i s = .next t) (ht : t.runState = .faulted) :
    ∃ kind, t = s.enterFault kind s.insnAddr (some (encode i)) := by
  rcases exec_run_cases h with ⟨-, rfl⟩ | ⟨x, -, ⟨-, rfl⟩ | ⟨-, hr, -⟩⟩ | ⟨-, -, hraise | ⟨hr, -⟩⟩
  · exact absurd ht nofun
  · exact absurd ht nofun
  · exact absurd (ht.symm.trans (hr.trans hrun)) nofun
  · exact hraise
  · exact absurd (ht.symm.trans (hr.trans hrun)) nofun

/-! ## The record after a step -/

theorem State.enterFault_fault_eq_some {a : Word} {v : Option Word} :
    (s.enterFault kind a v).fault = some f ↔ f.kind = kind ∧ f.faultPc = a ∧ f.word = v := by
  cases f
  simp [eq_comm]

/-- From a machine without a record, an execution leaves exactly the record of its cause (R185). -/
theorem exec_fault_eq_some (hnone : s.fault = none) (h : exec i s = .next t) :
    t.fault = some f ↔ FaultCause i s f.kind ∧ f.faultPc = s.insnAddr ∧ f.word = some (encode i) := by
  rcases exec_by_cause i s with ⟨kind, hkind, hx⟩ | ⟨hcause, u, hx, hu⟩
  · obtain rfl := exec_next_unique h hx
    rw [State.enterFault_fault_eq_some, hkind]
  · obtain rfl := exec_next_unique h hx
    simp [hu, hnone, hcause]

/-- The condition on which a step that fetches the word `w` faults: the word is undefined, or its operation has a cause (R181
to R184). -/
def WordFaultCause (w : Word) (s : State) (kind : FaultKind) : Prop :=
  (kind = .decodeError ∧ ∃ e, decodeWord w = .error e) ∨ ∃ i, decodeWord w = .ok i ∧ FaultCause i s kind

theorem wordFaultCause_of_error {e : Reject} (hd : decodeWord w = .error e) :
    WordFaultCause w s kind ↔ kind = .decodeError := by
  simp [WordFaultCause, hd]

theorem wordFaultCause_of_ok (hd : decodeWord w = .ok i) : WordFaultCause w s kind ↔ FaultCause i s kind := by
  simp [WordFaultCause, hd]

theorem wordFaultCause_decodeError : WordFaultCause w s .decodeError ↔ ∃ e, decodeWord w = .error e := by
  have hop : ∀ i, ¬ FaultCause i s .decodeError := by
    intro i
    cases i <;> simp [FaultCause]
  simp [WordFaultCause, hop]

/-- R182. -/
theorem wordFaultCause_stackOverflow :
    WordFaultCause w s .stackOverflow ↔ ∃ nnn, decodeWord w = .ok (.call nnn) ∧ s.sp.val = 16 := by
  cases hd : decodeWord w with
  | error e => simp [wordFaultCause_of_error hd]
  | ok i =>
    rw [wordFaultCause_of_ok hd]
    cases i <;> simp [FaultCause]

/-- R183. -/
theorem wordFaultCause_stackUnderflow :
    WordFaultCause w s .stackUnderflow ↔ decodeWord w = .ok .ret ∧ s.sp.val = 0 := by
  cases hd : decodeWord w with
  | error e => simp [wordFaultCause_of_error hd]
  | ok i =>
    rw [wordFaultCause_of_ok hd]
    cases i <;> simp [FaultCause]

/-- The causes speak of `sp`, `I` and the registers, which the stages before execution keep. -/
theorem faultCause_advance_resume : FaultCause i s.resume.advance kind ↔ FaultCause i s kind := Iff.rfl

/-- From a machine without a record, a step that fetches a word leaves exactly the record of the word's cause (R185). -/
theorem step_fault_eq_some (hnone : s.fault = none) (hf : s.fetched = some w) (h : step s = .next t) :
    t.fault = some f ↔ WordFaultCause w s f.kind ∧ f.faultPc = s.pc ∧ f.word = some w := by
  have haddr : s.resume.advance.insnAddr = s.pc := State.insnAddr_advance s.resume
  rcases (step_next_cases h).2 with ⟨hf', -⟩ | ⟨v, e, hf', hd, rfl⟩ | ⟨v, i, hf', hd, hx⟩
  · exact absurd (hf.symm.trans hf') nofun
  · obtain rfl := Option.some.inj (hf.symm.trans hf')
    rw [State.decodeFault, State.enterFault_fault_eq_some, haddr, wordFaultCause_of_error hd]
  · obtain rfl := Option.some.inj (hf.symm.trans hf')
    rw [exec_fault_eq_some (s := s.resume.advance) hnone hx, haddr, encode_of_decodeWord hd, faultCause_advance_resume,
      wordFaultCause_of_ok hd]

theorem step_exists_fault (hnone : s.fault = none) (hf : s.fetched = some w) (h : step s = .next t) :
    (∃ f, t.fault = some f ∧ f.kind = kind) ↔ WordFaultCause w s kind := by
  simp only [step_fault_eq_some hnone hf h]
  constructor
  · rintro ⟨f, ⟨hcause, -⟩, rfl⟩
    exact hcause
  · exact fun hcause => ⟨⟨kind, s.pc, some w⟩, ⟨hcause, rfl, rfl⟩, rfl⟩

/-- A word that does not decode ends the step in the fault of the decoder, with `pc` advanced (R83, R181). -/
theorem step_of_decode_error {e : Reject} (hact : s.Active) (hf : s.fetched = some w) (hd : decodeWord w = .error e) :
    step s = .next (s.resume.advance.decodeFault w) := by
  have hf' : s.resume.fetched = some w := hf
  rcases hact with hr | hr
  · simp only [step, hr, hf', hd]
  · simp only [step, hr, hf', hd]

/-- A step into Faulted is one fault entry: from the resumed machine where the fetch failed, from the advanced one otherwise,
with the fetched word in the record (R81, R185). -/
theorem step_enters_faulted (h : step s = .next t) (ht : t.runState = .faulted) :
    ∃ kind, (s.fetched = none ∧ t = s.resume.enterFault kind s.pc s.fetched) ∨
      (s.fetched ≠ none ∧ t = s.resume.advance.enterFault kind s.pc s.fetched) := by
  have haddr : s.resume.advance.insnAddr = s.pc := State.insnAddr_advance s.resume
  rcases (step_next_cases h).2 with ⟨hf, rfl⟩ | ⟨w, e, hf, hd, rfl⟩ | ⟨w, i, hf, hd, hx⟩
  · exact ⟨_, .inl ⟨hf, by rw [hf]; rfl⟩⟩
  · exact ⟨_, .inr ⟨by simp [hf], by rw [State.decodeFault, haddr, hf]⟩⟩
  · obtain ⟨kind, rfl⟩ := exec_enters_faulted rfl hx ht
    exact ⟨kind, .inr ⟨by simp [hf], by rw [haddr, hf, encode_of_decodeWord hd]⟩⟩

/-! ## The timers -/

/-- A timer after one tick (R191). -/
def countDown (b : Byte) : Byte := if 0 < b.toNat then b - 1 else b

theorem countDown_toNat (b : Byte) : (countDown b).toNat = b.toNat - 1 := by
  unfold countDown
  split
  case isTrue h => exact BitVec.toNat_sub_of_le (x := b) (y := 1) h
  case isFalse h => omega

theorem State.tickDelay_eq (s : State) : s.tickDelay = s.setDelay (countDown s.dt) := by
  unfold State.tickDelay countDown
  split <;> rfl

theorem State.tickSound_eq (s : State) : s.tickSound = s.setSound (countDown s.st) := by
  unfold State.tickSound countDown
  split <;> rfl

theorem State.soundActive_iff (s : State) : s.soundActive = true ↔ s.st.toNat ≠ 0 := by
  rw [State.soundActive_eq, decide_eq_true_iff, Ne, BitVec.toNat_eq]
  rfl

end Exceptions

end Sys2Proof.Machine
end

section
/-! PROOFS. The statements about exceptions and timers (60_exceptions.md). -/

namespace Sys2Proof.Proofs

open Sys2Proof.Machine

/-- Settles O11: the record of kind DecodeError has one cause, an undefined word. -/
theorem undefinedWordRaisesDecodeError : Obligations.UndefinedWordRaisesDecodeError := by
  intro s w hact hnone hf
  refine ⟨fun e hd => ?_, fun i t f hd h ht hkind => ?_⟩
  · have h := step_of_decode_error hact hf hd
    exact ⟨_, h, rfl, (step_fault_eq_some hnone hf h).mpr ⟨(wordFaultCause_of_error hd).mpr rfl, rfl, rfl⟩⟩
  · obtain ⟨e, hd'⟩ := wordFaultCause_decodeError.mp ((step_exists_fault hnone hf h).mp ⟨f, ht, hkind⟩)
    exact absurd (hd.symm.trans hd') nofun

/-- Settles O12: the record a step leaves is that of its word's cause, and each stack fault has one. -/
theorem stackFaultsHaveOneCauseEach : Obligations.StackFaultsHaveOneCauseEach := by
  intro s t w _ hnone hf h
  have hrecord : ∀ f, t.fault = some f → f.faultPc = s.pc ∧ f.word = some w := fun f ht =>
    ((step_fault_eq_some hnone hf h).mp ht).2
  refine ⟨⟨(step_exists_fault hnone hf h).trans wordFaultCause_stackOverflow, fun f ht _ => hrecord f ht⟩,
    ⟨(step_exists_fault hnone hf h).trans wordFaultCause_stackUnderflow, fun f ht hkind => ?_⟩⟩
  obtain ⟨hd, -⟩ := wordFaultCause_stackUnderflow.mp ((step_exists_fault hnone hf h).mp ⟨f, ht, hkind⟩)
  have hw : 0x00EE = w := encode_of_decodeWord hd
  rw [hw]
  exact hrecord f ht

/-- Settles O13: on a cause the fault is raised; without one no record is written, and Faulted is not entered without one. -/
theorem operationsFaultExactlyOnTheirCause : Obligations.OperationsFaultExactlyOnTheirCause := by
  intro i s hrun hnone
  refine ⟨fun kind hcause => exec_faultsWith (exec_of_faultCause hcause), fun hcause => ?_⟩
  obtain ⟨t, hx, hrecord⟩ := exec_of_no_faultCause hcause
  refine ⟨t, hx, fun ht => ?_, hrecord.trans hnone⟩
  obtain ⟨kind, rfl⟩ := exec_enters_faulted hrun hx ht
  exact absurd (hrecord.trans hnone) nofun

/-- Settles O14: a step into Faulted is a fault entry, after the resume and, where a word was fetched, the advance. -/
theorem faultEntryIsPrecise : Obligations.FaultEntryIsPrecise := by
  intro s t _ h ht
  have resumed := (Frame.refl s).setRun .running
  obtain ⟨kind, ⟨hf, rfl⟩ | ⟨hf, rfl⟩⟩ := step_enters_faulted h ht
  · exact ⟨((resumed.enterFault kind s.pc s.fetched).mono_parts (by decide)).toKeeps, ⟨kind, rfl⟩, (if_pos hf).symm⟩
  · have advanced := resumed.setPc (s.pc + 2)
    exact ⟨((advanced.enterFault kind s.pc s.fetched).mono_parts (by decide)).toKeeps, ⟨kind, rfl⟩, (if_neg hf).symm⟩

/-- Settles O48: each tick is one write of its timer. -/
theorem ticksCountDownToZero : Obligations.TicksCountDownToZero := by
  intro s
  rw [State.tickDelay_eq, State.tickSound_eq]
  exact ⟨⟨countDown_toNat s.dt, ((Frame.refl s).setDelay _).toKeeps⟩,
    ⟨countDown_toNat s.st, ((Frame.refl s).setSound _).toKeeps⟩, s.soundActive_iff⟩

end Sys2Proof.Proofs
end

section
/-! PROOFS. What the host's moves do: the load of a program image, the rebuilt machine, and `DT` between two set-delays. -/

namespace Sys2Proof.Machine

section HostSide

variable {cfg : Config} {s t : State} {image : List Byte}

/-! ## Program load -/

/-- With the entry address inside memory, the length limit of the loader bounds where the image ends (R5, R211). -/
theorem imageFits_iff (hcfg : cfg.wf) : imageFits cfg image ↔ cfg.entry.toNat + image.length ≤ 4096 := by
  obtain ⟨-, -, -, hentry⟩ := hcfg
  rw [Config.entryInMemory, memSize_eq] at hentry
  rw [imageFits, Config.maxProgram, memSize_eq]
  omega

/-- An image that fits stands at `ENTRY`, and its block of memory is all that differs (R211). -/
theorem State.loadProgram_of_fits (hcfg : s.cfg.wf) (hfits : s.cfg.entry.toNat + image.length ≤ 4096) :
    ∃ t, s.loadProgram image = .next t ∧
      (∀ k b, image[k]? = some b → t.memRead (s.cfg.entry.toNat + k) = some b) ∧
      Frame { storeBase := s.cfg.entry.toNat, storeLen := image.length } s t :=
  ⟨_, if_pos ((imageFits_iff hcfg).mpr hfits), fun _ _ hk => State.memRead_storeBytes hfits hk,
    Frame.storeBytes s rfl hfits⟩

theorem State.loadProgram_of_tooLong (hcfg : s.cfg.wf) (hlong : 4096 < s.cfg.entry.toNat + image.length) :
    s.loadProgram image = .refused .imageTooLong :=
  if_neg ((imageFits_iff hcfg).not.mpr (Nat.not_le_of_lt hlong))

/-! ## The rebuilt machine -/

theorem State.reg_rebuilt (s : State) (r : RegIdx) : s.rebuilt.reg r = 0 :=
  Vector.getElem_replicate r.isLt

theorem State.stack_rebuilt (s : State) (j : Fin 16) : s.rebuilt.stack[j] = 0 :=
  Vector.getElem_replicate j.isLt

/-- Nothing is listed in the rebuilt memory, so that every byte reads as the reset contents (R35, R36). -/
theorem State.memRead_rebuilt (s : State) {a : Nat} (ha : a ≤ 0xFFF) :
    s.rebuilt.memRead a = some (Memory.unlisted s.cfg a) :=
  (State.memRead_eq_some _ _ _).mpr ⟨Nat.lt_succ_of_le ha, rfl⟩

/-- The glyphs lie below 0x200, inside memory (R5, R36). -/
theorem State.memRead_rebuilt_glyph (hcfg : s.cfg.wf) (d : Fin 16) (k : Fin 5) :
    s.rebuilt.memRead (s.cfg.fontBase.toNat + 5 * d.val + k.val) = some (s.cfg.glyphs[d][k]) := by
  have hfont : s.cfg.fontBase.toNat + 80 ≤ 0x200 := hcfg.1
  rw [s.memRead_rebuilt (by omega), Memory.unlisted_glyph]

theorem State.memRead_rebuilt_outside (s : State) {a : Nat}
    (hout : ¬ (s.cfg.fontBase.toNat ≤ a ∧ a < s.cfg.fontBase.toNat + 80)) (ha : a ≤ 0xFFF) :
    s.rebuilt.memRead a = some 0 := by
  rw [s.memRead_rebuilt ha, Memory.unlisted_outside _ _ hout]

/-! ## The delay timer -/

/-- Of the host's moves, boot aside, the tick alone writes `DT`, and it counts down (R89, R191). -/
theorem HostMove.apply_dt_le {m : HostMove} (hboot : ∀ image, m ≠ .boot image) (h : m.apply s = .next t) :
    t.dt.toNat ≤ s.dt.toNat := by
  cases m with
  | boot image => exact absurd rfl (hboot image)
  | tickDelay =>
    obtain rfl := Host.Outcome.next.inj h
    rw [State.tickDelay_eq, State.setDelay_dt, countDown_toNat]
    exact Nat.sub_le _ _
  | tickSound =>
    obtain rfl := Host.Outcome.next.inj h
    rw [State.tickSound_eq, State.setSound_dt]
  | answers rs ds ps =>
    obtain rfl := Host.Outcome.next.inj h
    rfl

end HostSide

end Sys2Proof.Machine
end

section
/-! PROOFS. The statements about reset and the host (70_reset_and_hazards.md). -/

namespace Sys2Proof.Proofs

open Sys2Proof.Machine

/-- Settles O52: a step keeps `DT` where its instruction is no set-delay, and a host move that is no boot never raises it. -/
theorem delayTimerOnlyFalls : Obligations.DelayTimerOnlyFalls := by
  intro e s t h hboot hset
  cases e with
  | step => rw [step_dt_unchanged h (hset rfl)]
  | host m => exact HostMove.apply_dt_le (fun image hm => hboot image (congrArg Event.host hm)) h

/-- Settles O54. -/
theorem programLoadPlacesTheImage : Obligations.ProgramLoadPlacesTheImage := by
  intro s image hcfg
  refine ⟨fun hfits => ?_, State.loadProgram_of_tooLong hcfg⟩
  obtain ⟨t, hload, himage, hframe⟩ := State.loadProgram_of_fits hcfg hfits
  exact ⟨t, hload, himage, hframe.toKeeps⟩

/-- Settles O60: boot loads the image into the rebuilt machine, so that the frame of the load gives every other value. -/
theorem bootRebuildsTheMachine : Obligations.BootRebuildsTheMachine := by
  intro s image hcfg
  refine ⟨fun hfits => ?_, State.loadProgram_of_tooLong (s := s.rebuilt) hcfg⟩
  obtain ⟨t, hload, himage, hframe⟩ := State.loadProgram_of_fits (s := s.rebuilt) hcfg hfits
  obtain ⟨hstack, hsp⟩ := hframe.stack nofun
  have hdisplay : t.display = [] := hframe.display nofun
  refine ⟨t, hload, fun r => (hframe.regs r nofun).trans (s.reg_rebuilt r), hframe.index nofun, hframe.pc nofun, hsp,
    fun j => hstack ▸ s.stack_rebuilt j, hframe.delay nofun, hframe.sound nofun, hframe.run nofun, hframe.fault nofun,
    fun p => hdisplay ▸ rfl, hframe.cfg, hframe.env nofun, himage, fun a hout => ⟨?_, fun hfont ha => ?_⟩⟩
  · rintro d k rfl
    exact (hframe.memory _ hout).trans (State.memRead_rebuilt_glyph hcfg d k)
  · exact (hframe.memory a hout).trans (s.memRead_rebuilt_outside hfont ha)

end Sys2Proof.Proofs
end
